-- ==== Sys2Proof/Word.lean ====
section
/-! DEFINITION. The word types of EFDX (00_scope.md R6, R7; 20_memory.md R40, R43; 30_encoding.md R55). -/

namespace Sys2Proof

/-- An 8-bit value: an output byte, a sample byte, a file byte (10_state.md R23). -/
abbrev Byte := BitVec 8

/-- A bus word: every transaction moves exactly 32 bits (20_memory.md R43). -/
abbrev Word := BitVec 32

/-- A binary64 pattern (00_scope.md R7). -/
abbrev F64 := BitVec 64

/-- A host transaction as one 39-bit pattern, format T (30_encoding.md R55, R56). -/
abbrev TPattern := BitVec 39

end Sys2Proof
end

