-- ==== Sys2Proof/Syntax.lean ====
section
/-! DEFINITION. The transactions a host can issue, one constructor per row of spec/opcode_table.json,
and the names they are written with. -/

namespace Sys2Proof

/-- The 64 word slots of the register map (10_state.md R21). -/
inductive Slot where
  /-- A = 0, CMD. -/
  | cmd
  /-- A = 1, STATUS. -/
  | status
  /-- A = 2, XHI. -/
  | xhi
  /-- A = 3, XLO. -/
  | xlo
  /-- A = 4, FRESL. -/
  | fresl
  /-- A = 5, FRESH. -/
  | fresh
  /-- A = 6 + i, reserved. -/
  | reservedLow (i : Fin 10)
  /-- A = 16 + 2i, HL[i]. -/
  | hl (i : BitVec 3)
  /-- A = 17 + 2i, HH[i]. -/
  | hh (i : BitVec 3)
  /-- A = 32 + i, reserved. -/
  | reservedHigh (i : Fin 32)
deriving DecidableEq, Repr

/-- The access type of a slot (10_state.md R21). -/
inductive Access where
  | writeOnly
  | readOnly
  | readWrite
  | reserved
deriving DecidableEq, Repr

/-- The causes of an error report (60_exceptions.md R110). -/
inductive ErrCause where
  | illOpcode
  | illRsvd
  | illOperand
  | berrRo
  | berrUnmapped
deriving DecidableEq, Repr

/-- One legal host transaction, or a write that the table lists as raising BERR: one constructor per
row of the opcode table (30_encoding.md R59). Operands are the fields the row's format gives. -/
inductive Instr where
  /-- NOP (40_control.md R70). -/
  | nop
  /-- DRST (40_control.md R72). -/
  | drst
  /-- ECLR (40_control.md R74). -/
  | eclr
  /-- BYP8, the 8-bit sample (42_reduce.md R92). -/
  | byp8 (b : Byte)
  /-- Q16, the 16-bit sample (42_reduce.md R94). -/
  | q16 (imm : BitVec 16)
  /-- Q16D, the 16-bit sample (42_reduce.md R96). -/
  | q16d (imm : BitVec 16)
  /-- XCVT, the exponent field (41_extfloat.md R81). -/
  | xcvt (imm : BitVec 16)
  /-- RD, a read of any slot; T[31:0] is ignored (30_encoding.md R55, 20_memory.md R41). -/
  | rd (slot : Slot)
  /-- WR XHI (10_state.md R28). -/
  | wrXhi (d : Word)
  /-- WR XLO (10_state.md R29). -/
  | wrXlo (d : Word)
  /-- WR of a read-only or reserved slot (20_memory.md R42). -/
  | wrBad (slot : Slot) (d : Word)
deriving DecidableEq, Repr

end Sys2Proof
end

