-- ==== Sys2Proof/Machine/Operands.lean ====
section
/-! DEFINITION. How an operand or an address is read: slots, access types, sign and zero extension
(00_scope.md R6, 10_state.md R21, 30_encoding.md R58). -/

namespace Sys2Proof

/-- The access column of the register map (10_state.md R21). -/
def Slot.access : Slot → Access
  | .cmd => .writeOnly
  | .status => .readOnly
  | .xhi => .readWrite
  | .xlo => .readWrite
  | .fresl => .readOnly
  | .fresh => .readOnly
  | .reservedLow _ => .reserved
  | .hl _ => .readOnly
  | .hh _ => .readOnly
  | .reservedHigh _ => .reserved

/-- The error a write to a slot of this access type raises, if it raises one (20_memory.md R42). -/
def Access.writeError : Access → Option ErrCause
  | .writeOnly => none
  | .readOnly => some .berrRo
  | .readWrite => none
  | .reserved => some .berrUnmapped

/-- The word address of a slot (10_state.md R21). -/
def Slot.addr : Slot → BitVec 6
  | .cmd => 0
  | .status => 1
  | .xhi => 2
  | .xlo => 3
  | .fresl => 4
  | .fresh => 5
  | .reservedLow i => BitVec.ofNat 6 (6 + i.val)
  | .hl i => BitVec.ofNat 6 (16 + 2 * i.toNat)
  | .hh i => BitVec.ofNat 6 (17 + 2 * i.toNat)
  | .reservedHigh i => BitVec.ofNat 6 (32 + i.val)

/-- The slot at a word address (10_state.md R21). -/
def Slot.ofAddr (a : BitVec 6) : Slot :=
  let n := a.toNat
  if n = 0 then .cmd
  else if n = 1 then .status
  else if n = 2 then .xhi
  else if n = 3 then .xlo
  else if n = 4 then .fresl
  else if n = 5 then .fresh
  else if n < 16 then .reservedLow (Fin.ofNat 10 (n - 6))
  else if n < 32 then
    if n % 2 = 0 then .hl (BitVec.ofNat 3 ((n - 16) / 2)) else .hh (BitVec.ofNat 3 ((n - 17) / 2))
  else .reservedHigh (Fin.ofNat 32 (n - 32))

/-- `sext_16` (00_scope.md R6): the operand of Q16, Q16D and XCVT (30_encoding.md R58). -/
def sext16 (v : BitVec 16) : Int := v.toInt

/-- `zext_32` (00_scope.md R6): the mantissa words of XCVT (30_encoding.md R58). -/
def zext32 (v : Word) : Nat := v.toNat

end Sys2Proof
end

