-- ==== Sys2Proof/WellFormed.lean ====
section
/-! DEFINITION. Which terms of `Instr` some T pattern stands for. -/

namespace Sys2Proof

/-- Every term is well formed but a `wrBad` whose slot accepts writes: those writes are the rows of
CMD, XHI and XLO, which take precedence (20_memory.md R42, opcode_table.json). The operand fields have
exactly the widths of 30_encoding.md R56 to R58, so nothing else is left to check. -/
def Instr.wellFormed : Instr → Bool
  | .nop => true
  | .drst => true
  | .eclr => true
  | .byp8 _ => true
  | .q16 _ => true
  | .q16d _ => true
  | .xcvt _ => true
  | .rd _ => true
  | .wrXhi _ => true
  | .wrXlo _ => true
  | .wrBad slot _ => slot.access.writeError.isSome

end Sys2Proof
end

