-- ==== Sys2Proof/Decode.lean ====
section
/-! DEFINITION. The decoder, total on every 39-bit T pattern, and the encoder beside it
(30_encoding.md R55 to R62). A rejected command word is rejected by the name of its cause. -/

namespace Sys2Proof

/-- `T[38]`: 1 = BusWrite, 0 = BusRead (30_encoding.md R56). -/
def fieldW (t : TPattern) : Bool := t.getLsbD 38

/-- `T[37:32]`, the word address (30_encoding.md R56). -/
def fieldA (t : TPattern) : BitVec 6 := t.extractLsb' 32 6

/-- `T[31:0]`, the data word (30_encoding.md R56). -/
def fieldD (t : TPattern) : Word := t.extractLsb' 0 32

/-- `C[31:24]`, the operation code (30_encoding.md R57). -/
def fieldOp (d : Word) : BitVec 8 := d.extractLsb' 24 8

/-- `C[23:16]`, reserved (30_encoding.md R57). -/
def fieldRsv (d : Word) : BitVec 8 := d.extractLsb' 16 8

/-- `C[15:0]`, the operand (30_encoding.md R57). -/
def fieldImm (d : Word) : BitVec 16 := d.extractLsb' 0 16

/-- The command of a known opcode whose operand is legal; `none` for an illegal operand
(30_encoding.md R58, R60). The outer `none` is an opcode outside the map (R59, R62). -/
def commandOf (op : BitVec 8) (imm : BitVec 16) : Option (Option Instr) :=
  match op.toNat with
  | 0x00 => some (if imm = 0 then some .nop else none)
  | 0x01 => some (if imm = 0 then some .drst else none)
  | 0x02 => some (if imm = 0 then some .eclr else none)
  | 0x10 => some (if imm.extractLsb' 8 8 = 0 then some (.byp8 (imm.extractLsb' 0 8)) else none)
  | 0x11 => some (some (.q16 imm))
  | 0x12 => some (some (.q16d imm))
  | 0x20 => some (some (.xcvt imm))
  | _ => none

/-- The decoding of a command word, its checks in the order of 30_encoding.md R61: opcode, reserved
field, operand. -/
def decodeCommand (d : Word) : Except ErrCause Instr :=
  match commandOf (fieldOp d) (fieldImm d) with
  | none => .error .illOpcode
  | some legal =>
    if fieldRsv d ≠ 0 then .error .illRsvd
    else match legal with
      | none => .error .illOperand
      | some i => .ok i

/-- The decoding of a BusWrite by its slot (20_memory.md R42). -/
def decodeWrite (slot : Slot) (d : Word) : Except ErrCause Instr :=
  match slot with
  | .cmd => decodeCommand d
  | .xhi => .ok (.wrXhi d)
  | .xlo => .ok (.wrXlo d)
  | .status => .ok (.wrBad slot d)
  | .fresl => .ok (.wrBad slot d)
  | .fresh => .ok (.wrBad slot d)
  | .reservedLow _ => .ok (.wrBad slot d)
  | .hl _ => .ok (.wrBad slot d)
  | .hh _ => .ok (.wrBad slot d)
  | .reservedHigh _ => .ok (.wrBad slot d)

/-- The instruction a T pattern stands for, or the cause an illegal command word is rejected for
(30_encoding.md R55, R61). A read ignores `T[31:0]`. -/
def decode (t : TPattern) : Except ErrCause Instr :=
  if fieldW t then decodeWrite (Slot.ofAddr (fieldA t)) (fieldD t)
  else .ok (.rd (Slot.ofAddr (fieldA t)))

/-- The T pattern of `BusRead(A)`; the ignored data field is written as 0 (30_encoding.md R55; log 10). -/
def tRead (a : BitVec 6) : TPattern := 0#1 ++ (a ++ 0#32)

/-- The T pattern of `BusWrite(A, D)` (30_encoding.md R55). -/
def tWrite (a : BitVec 6) (d : Word) : TPattern := 1#1 ++ (a ++ d)

/-- The C word `OP`, `RSV = 0`, `IMM` (30_encoding.md R57). -/
def cWord (op : BitVec 8) (imm : BitVec 16) : Word := op ++ (0#8 ++ imm)

/-- The T pattern of each instruction (30_encoding.md R59, R64). -/
def encode : Instr → TPattern
  | .nop => tWrite 0 (cWord 0x00 0)
  | .drst => tWrite 0 (cWord 0x01 0)
  | .eclr => tWrite 0 (cWord 0x02 0)
  | .byp8 b => tWrite 0 (cWord 0x10 (0#8 ++ b))
  | .q16 imm => tWrite 0 (cWord 0x11 imm)
  | .q16d imm => tWrite 0 (cWord 0x12 imm)
  | .xcvt imm => tWrite 0 (cWord 0x20 imm)
  | .rd slot => tRead slot.addr
  | .wrXhi d => tWrite 2 d
  | .wrXlo d => tWrite 3 d
  | .wrBad slot d => tWrite slot.addr d

/-- The T pattern of a word numbered as spec/opcode_table.json numbers it: a row of at most 32 bits is
a C word, written as D of a write to A = 0 (the table's note, T = 0x40_0000_0000 | word); a wider row
is the T pattern itself (log 12). -/
def tableTPattern (nbits w : Nat) : TPattern :=
  if nbits ≤ 32 then tWrite 0 (BitVec.ofNat 32 w) else BitVec.ofNat 39 w

/-- What the decoder reads from the table's word `w`; a word with a bit above bit 38 is no T pattern. -/
def decodeTableWord (nbits w : Nat) : Option Instr :=
  if w < 2 ^ (if nbits ≤ 32 then 32 else 39) then
    match decode (tableTPattern nbits w) with
    | .ok i => some i
    | .error _ => none
  else none

end Sys2Proof
end

