-- ==== Sys2Proof/Machine/State.lean ====
section
/-! DEFINITION. The state of EFDX (10_state.md R20), what stands beside it at the bus, and why a step
can stop. -/

namespace Sys2Proof.Machine

/-- What the outside world does to the block: the host issues a transaction (20_memory.md R41, R42) or
the platform asserts reset (70_reset_and_hazards.md R125), perhaps while a transaction is in progress
(log 1, log 9). -/
inductive HostInput where
  /-- A host transaction, as its T pattern. -/
  | bus (t : TPattern)
  /-- Reset; the transaction in progress, if there is one, is abandoned. -/
  | reset (inProgress : Option TPattern)
deriving DecidableEq, Repr

/-- One NoiseDraw pair (00_scope.md R12). -/
@[ext]
structure NoisePair where
  u1 : F64
  u2 : F64
deriving DecidableEq, Repr

/-- The nine pieces of architectural state of 10_state.md R20, and four fields of the model's own for
what R10, R12 and R41 place outside the block (log 1, 3, 4). -/
@[ext]
structure State where
  /-- H[0..7], binary64 quantization errors (R31). -/
  h : Vector F64 8
  /-- IDX, the rotating index (R24). -/
  idx : BitVec 3
  /-- OUT, the last output byte (R23). -/
  out : Byte
  /-- XHI, mantissa word hi (R28). -/
  xhi : Word
  /-- XLO, mantissa word lo (R29). -/
  xlo : Word
  /-- FRES, the result of the last XCVT (R30). -/
  fres : F64
  /-- ILL, sticky (R25). -/
  ill : Bool
  /-- BERR, sticky (R26). -/
  berr : Bool
  /-- ECAUSE, the first error since the last clear (R27). -/
  ecause : BitVec 4
  /-- Model's own: inputs not yet performed, next first (log 1). -/
  inputs : List HostInput
  /-- Model's own: words returned to the host, oldest first (log 3). -/
  returned : List Word
  /-- Model's own: NoiseDraw pairs supplied for the next draws, next first (log 4). -/
  noise : List NoisePair
  /-- Model's own: how many pairs have been drawn; it names the next free pair (log 4). -/
  drawn : Nat
deriving DecidableEq, Repr

/-- The reset values of 10_state.md R36; the model's own fields are empty (DESIGN CHOICE, log 16). -/
def State.reset : State where
  h := Vector.replicate 8 0
  idx := 0
  out := 0
  xhi := 0
  xlo := 0
  fres := 0
  ill := false
  berr := false
  ecause := 0
  inputs := []
  returned := []
  noise := []
  drawn := 0

/-- Why the machine is stuck. EFDX itself has no trap: an error is a next state (60_exceptions.md R113). -/
inductive Fault where
  /-- Raised by `step` when no input is pending: no step exists other than a host transaction
  (00_scope.md R11) and the block is idle. Safe: the model stops where the block waits (log 2). -/
  | noInput
deriving DecidableEq, Repr

/-- Why the model declines to say what happens. -/
inductive Refusal where
  /-- Raised by an arm of `exec` that has no meaning. Safe. No arm raises it. -/
  | notModelled (mnemonic : String)
  /-- Raised by Q16D when the supplied pair leaves [-0.5, 0.5]: "pairs outside the range are outside
  the model (refused)" (D9, I3). Safe (log 5). -/
  | noiseOutOfRange
  /-- Raised by `exec` on a `wrBad` term that no T pattern stands for; `step` never raises it. Safe
  (log 13). -/
  | illFormed
deriving DecidableEq, Repr

end Sys2Proof.Machine
end

