-- ==== Sys2Proof/Machine/Flags.lean ====
section
/-! DEFINITION. The status bits: cause codes, sticky bits and the STATUS word (10_state.md R22 to R27,
60_exceptions.md R110). EFDX has no condition codes and no floating-point flags (10_state.md R34). -/

namespace Sys2Proof.Machine

/-- The cause code held in ECAUSE (60_exceptions.md R110). -/
def causeCode : ErrCause → BitVec 4
  | .illOpcode => 0x1
  | .illRsvd => 0x2
  | .illOperand => 0x3
  | .berrRo => 0x4
  | .berrUnmapped => 0x5

/-- Whether a cause sets ILL; the others set BERR (60_exceptions.md R110). -/
def causeIsIll : ErrCause → Bool
  | .illOpcode => true
  | .illRsvd => true
  | .illOperand => true
  | .berrRo => false
  | .berrUnmapped => false

/-- ECAUSE after an error: the code only while ILL and BERR are both 0 (10_state.md R27). -/
def firstCause (c : ErrCause) (s : State) : BitVec 4 :=
  if !s.ill && !s.berr then causeCode c else s.ecause

/-- The STATUS word, from bit 31 down (10_state.md R22, 20_memory.md R41). -/
def statusWord (s : State) : Word :=
  0x00#8 ++ s.ecause ++ 0#2 ++ BitVec.ofBool s.berr ++ BitVec.ofBool s.ill ++ 0#5 ++ s.idx ++ s.out

end Sys2Proof.Machine
end

