-- ==== Sys2Proof/Config.lean ====
section
/-! DEFINITION. What the spec leaves open: the parameter EXT_SAT and the free values.
None of these constants has a body, so no proof can know a value of one. -/

namespace Sys2Proof

/-- Which of its two admissible values the OPEN parameter EXT_SAT has: `false` for the default
0x7FEFFFFFFFFFFFFF, `true` for 0x7FF0000000000000 (41_extfloat.md R83, D15, I1; log 6). -/
opaque Config.extSatIsInfinity : Bool

/-- The first component of the `n`-th noise pair when the host's side supplies none
(00_scope.md R12: any value in the range; log 4). -/
opaque Config.noiseU1 : Nat → BitVec 64

/-- The second component of that pair (00_scope.md R12; log 4). -/
opaque Config.noiseU2 : Nat → BitVec 64

/-- The pattern of a NaN result, by operation (0 add, 1 multiply, 2 divide) and operands; 00_scope.md
R7 gives none. A NaN is not reached from reset (10_state.md R32; log 7). -/
opaque Config.nanBits : Nat → BitVec 64 → BitVec 64 → BitVec 64

/-- `floor64` of a NaN operand, which 00_scope.md R7 does not define (not reached from reset; log 8). -/
opaque Config.floorOfNaN : BitVec 64 → BitVec 64

end Sys2Proof
end

