-- ==== Sys2Proof/Machine/Float.lean ====
section
/-! DEFINITION. The numeric primitives of 00_scope.md R7 to R9: binary64 patterns, round-to-nearest
ties-to-even, no fusion, no flags. Each operation decomposes its operands, computes the exact result and
rounds once at the end. What R7 leaves to IEEE 754 is log 15. -/

namespace Sys2Proof.Machine

/-- What a binary64 pattern denotes (R7): `fin neg m e` is `(-1)^neg * m * 2^e`. -/
inductive FVal where
  | nan
  | inf (neg : Bool)
  | fin (neg : Bool) (m : Nat) (e : Int)
deriving DecidableEq, Repr

/-- `b[63]`. -/
def f64Sign (b : F64) : Bool := b.getLsbD 63

/-- `b[62:52]`, the biased exponent. -/
def f64Exp (b : F64) : Nat := (b.extractLsb' 52 11).toNat

/-- `b[51:0]`, the fraction. -/
def f64Frac (b : F64) : Nat := (b.extractLsb' 0 52).toNat

/-- `b[62:0]`: patterns of one sign are ordered as their values are. -/
def f64Mag (b : F64) : Nat := (b.extractLsb' 0 63).toNat

/-- The value of a pattern (R7). -/
def FVal.ofBits (b : F64) : FVal :=
  if f64Exp b = 0x7FF then
    if f64Frac b = 0 then .inf (f64Sign b) else .nan
  else if f64Exp b = 0 then .fin (f64Sign b) (f64Frac b) (-1074)
  else .fin (f64Sign b) (2 ^ 52 + f64Frac b) ((f64Exp b : Int) - 1075)

/-- The magnitude bits of infinity. -/
def infMag : Nat := 0x7FF0000000000000

/-- The pattern with the given sign and magnitude bits. -/
def packF64 (neg : Bool) (mag : Nat) : F64 :=
  BitVec.ofNat 64 ((if neg then 2 ^ 63 else 0) + mag)

/-- `m / 2 ^ k` rounded to the nearest integer, ties to even. -/
def rneShift (m k : Nat) : Nat :=
  let q := m / 2 ^ k
  let r := m % 2 ^ k
  if 2 ^ k < 2 * r ∨ (2 * r = 2 ^ k ∧ q % 2 = 1) then q + 1 else q

/-- The exponent of the last place to which `m * 2 ^ e`, `m ≠ 0`, is rounded: 52 below that of its
leading bit, and at least -1074 (R7: subnormals are multiples of 2^-1074). -/
def lastPlace (m : Nat) (e : Int) : Int := max ((m.log2 : Int) + e - 52) (-1074)

/-- How many units of the last place `2 ^ q` the value `m * 2 ^ e` rounds to, ties to even. -/
def unitsAt (m : Nat) (e q : Int) : Nat :=
  if q ≤ e then m * 2 ^ (e - q).toNat else rneShift m (q - e).toNat

/-- The magnitude bits of the exact `m * 2 ^ e` rounded to binary64, round-to-nearest ties-to-even
(R7). `n` units of `2 ^ q` have the bits `(q + 1074) * 2 ^ 52 + n`, for normal and subnormal results
alike, and a result of 2^1024 or more is infinity. -/
def roundMag (m : Nat) (e : Int) : Nat :=
  if m = 0 then 0
  else
    let q := lastPlace m e
    min ((q + 1074).toNat * 2 ^ 52 + unitsAt m e q) infMag

/-- `(-1)^neg * m * 2 ^ e` rounded to binary64 (R7). -/
def roundF64 (neg : Bool) (m : Nat) (e : Int) : F64 := packF64 neg (roundMag m e)

/-- A NaN pattern made from a free value: the exponent field all ones and the fraction not zero. -/
def toNaN (p : F64) : F64 :=
  let b := p ||| 0x7FF0000000000000#64
  if f64Frac b = 0 then b ||| 1#64 else b

/-- The result of an operation that R7 and IEEE 754 give no number: some NaN, which one is free (log 7). -/
def freeNaN (op : Nat) (a b : F64) : F64 := toNaN (Config.nanBits op a b)

/-- The pattern with its sign bit flipped. -/
def f64Neg (b : F64) : F64 := b ^^^ 0x8000000000000000#64

/-- A signed integer from sign and magnitude. -/
def signedInt (neg : Bool) (m : Nat) : Int := if neg then -(m : Int) else (m : Int)

/-- The exact sum of two finite values as an integer number of `2 ^ (min e g)`. -/
def exactSum (s : Bool) (m : Nat) (e : Int) (t : Bool) (n : Nat) (g : Int) : Int :=
  signedInt s (m * 2 ^ (e - min e g).toNat) + signedInt t (n * 2 ^ (g - min e g).toNat)

/-- `f64_add` (R7): an exact zero sum of operands of opposite sign is +0.0. -/
def f64Add (a b : F64) : F64 :=
  match FVal.ofBits a, FVal.ofBits b with
  | .fin s m e, .fin t n g =>
    let z := exactSum s m e t n g
    if z = 0 then packF64 (s && t) 0 else roundF64 (decide (z < 0)) z.natAbs (min e g)
  | .fin _ _ _, .inf t => packF64 t infMag
  | .inf s, .fin _ _ _ => packF64 s infMag
  | .inf s, .inf t => if s = t then packF64 s infMag else freeNaN 0 a b
  | .nan, .fin _ _ _ => freeNaN 0 a b
  | .nan, .inf _ => freeNaN 0 a b
  | .nan, .nan => freeNaN 0 a b
  | .fin _ _ _, .nan => freeNaN 0 a b
  | .inf _, .nan => freeNaN 0 a b

/-- `f64_sub` (R7); `x - x` is +0.0. -/
def f64Sub (a b : F64) : F64 := f64Add a (f64Neg b)

/-- `f64_mul` (R7). -/
def f64Mul (a b : F64) : F64 :=
  match FVal.ofBits a, FVal.ofBits b with
  | .fin s m e, .fin t n g => roundF64 (s != t) (m * n) (e + g)
  | .fin s m _, .inf t => if m = 0 then freeNaN 1 a b else packF64 (s != t) infMag
  | .inf s, .fin t n _ => if n = 0 then freeNaN 1 a b else packF64 (s != t) infMag
  | .inf s, .inf t => packF64 (s != t) infMag
  | .nan, .fin _ _ _ => freeNaN 1 a b
  | .nan, .inf _ => freeNaN 1 a b
  | .nan, .nan => freeNaN 1 a b
  | .fin _ _ _, .nan => freeNaN 1 a b
  | .inf _, .nan => freeNaN 1 a b

/-- The quotient `m / n` with 110 fractional bits and a sticky bit for what is left: it rounds to 53
bits as the exact quotient does (`m` and `n` have at most 53 bits, so it has at least 57). -/
def stickyQuotient (m n : Nat) : Nat :=
  let q := m * 2 ^ 110 / n
  2 * q + (if m * 2 ^ 110 % n = 0 then 0 else 1)

/-- `f64_div` (R7). -/
def f64Div (a b : F64) : F64 :=
  match FVal.ofBits a, FVal.ofBits b with
  | .fin s m e, .fin t n g =>
    if n = 0 then
      if m = 0 then freeNaN 2 a b else packF64 (s != t) infMag
    else roundF64 (s != t) (stickyQuotient m n) (e - g - 111)
  | .fin s _ _, .inf t => packF64 (s != t) 0
  | .inf s, .fin t _ _ => packF64 (s != t) infMag
  | .inf _, .inf _ => freeNaN 2 a b
  | .nan, .fin _ _ _ => freeNaN 2 a b
  | .nan, .inf _ => freeNaN 2 a b
  | .nan, .nan => freeNaN 2 a b
  | .fin _ _ _, .nan => freeNaN 2 a b
  | .inf _, .nan => freeNaN 2 a b

/-- `floor64` (R7): the largest integral value not above `x`, always exact. -/
def floor64 (x : F64) : F64 :=
  match FVal.ofBits x with
  | .fin neg m e =>
    if 0 ≤ e then x
    else
      let unit := 2 ^ (-e).toNat
      roundF64 neg (if neg then (m + (unit - 1)) / unit else m / unit) 0
  | .inf neg => packF64 neg infMag
  | .nan => Config.floorOfNaN x

/-- `i2f` (R7). -/
def i2f (n : Int) : F64 := roundF64 (decide (n < 0)) n.natAbs 0

/-- `scale64` (R7): the exact `m * 2 ^ e` rounded once. -/
def scale64 (m : Nat) (e : Int) : F64 := roundF64 false m e

/-- `clampbyte` (R7, D10), for an integral value; any fraction would be dropped (log 14). -/
def clampbyte (r : F64) : Byte :=
  match FVal.ofBits r with
  | .nan => 0
  | .inf neg => if neg then 0 else 255
  | .fin neg m e =>
    if neg then 0
    else BitVec.ofNat 8 (min 255 (if 0 ≤ e then m * 2 ^ e.toNat else m / 2 ^ (-e).toNat))

/-- The literal 0.5. -/
def fHalf : F64 := 0x3FE0000000000000

/-- The literal 128.0. -/
def f128 : F64 := 0x4060000000000000

/-- The literal 256.0. -/
def f256 : F64 := 0x4070000000000000

/-- doc00's `round(x)`: the addition is rounded, then the floor is taken (R9). -/
def roundHalfUp (x : F64) : F64 := floor64 (f64Add x fHalf)

/-- The five weights, tap number and pattern, in the order they are added (R8, 42_reduce.md R98). -/
def taps : List (BitVec 3 × F64) :=
  [(0, 0x40004395810624DD),
   (1, 0xC00151EB851EB852),
   (2, 0x3FFF5810624DD2F2),
   (3, 0xBFF970A3D70A3D71),
   (4, 0x3FE3AD42C3C9EECC)]

/-- The largest finite binary64 (41_extfloat.md R83). -/
def maxFinite : F64 := 0x7FEFFFFFFFFFFFFF

/-- EXT_SAT: the largest finite value or +infinity, which one is the implementation's
(41_extfloat.md R83, D15; log 6). -/
def extSat : F64 := if Config.extSatIsInfinity then packF64 false infMag else maxFinite

/-- Whether a value lies in [-0.5, 0.5] (R12). -/
def inHalfRange (u : F64) : Bool := decide (f64Mag u ≤ 0x3FE0000000000000)

end Sys2Proof.Machine
end

