-- ==== Sys2Proof/Machine/Ops.lean ====
section
/-! DEFINITION. The named operations over the state: every read and write of a register goes through
one of these. -/

namespace Sys2Proof.Machine

/-- `H[i]` (10_state.md R31). -/
def State.hist (s : State) (i : BitVec 3) : F64 := s.h[i.toNat]'(i.isLt)

/-- `H[i] <- v`. -/
def State.setHist (i : BitVec 3) (v : F64) (s : State) : State := { s with h := s.h.set i.toNat v i.isLt }

/-- `IDX <- v`. -/
def State.setIdx (v : BitVec 3) (s : State) : State := { s with idx := v }

/-- `OUT <- v`. -/
def State.setOut (v : Byte) (s : State) : State := { s with out := v }

/-- `XHI <- v`. -/
def State.setXhi (v : Word) (s : State) : State := { s with xhi := v }

/-- `XLO <- v`. -/
def State.setXlo (v : Word) (s : State) : State := { s with xlo := v }

/-- `FRES <- v`. -/
def State.setFres (v : F64) (s : State) : State := { s with fres := v }

/-- The fresh dither state (40_control.md R72): the history +0.0, IDX 0. -/
def State.freshDither (s : State) : State := { s with h := Vector.replicate 8 0, idx := 0 }

/-- `ILL <- 0; BERR <- 0; ECAUSE <- 0x0` (40_control.md R74). -/
def State.clearErrors (s : State) : State := { s with ill := false, berr := false, ecause := 0 }

/-- `raise ILL(c)` and `raise BERR(c)`, the one error report of EFDX: the code of the first error, its
sticky bit, and nothing else (60_exceptions.md R111). EFDX has no trap entry and no return from one
(R113, R116); `clearErrors` is what ends an error report. -/
def State.raise (c : ErrCause) (s : State) : State :=
  { s with
    ecause := firstCause c s
    ill := s.ill || causeIsIll c
    berr := s.berr || !causeIsIll c }

/-- Gives a word to the host (20_memory.md R41). -/
def State.giveHost (w : Word) (s : State) : State := { s with returned := s.returned ++ [w] }

/-- The inputs left when the first has been taken. -/
def State.withInputs (rest : List HostInput) (s : State) : State := { s with inputs := rest }

/-- The word `BusRead(A)` returns (20_memory.md R41): the low word of a 64-bit value stands at the
lower address (R45). -/
def busRead (slot : Slot) (s : State) : Word :=
  match slot with
  | .cmd => 0
  | .status => statusWord s
  | .xhi => s.xhi
  | .xlo => s.xlo
  | .fresl => s.fres.extractLsb' 0 32
  | .fresh => s.fres.extractLsb' 32 32
  | .reservedLow _ => 0
  | .hl i => (s.hist i).extractLsb' 0 32
  | .hh i => (s.hist i).extractLsb' 32 32
  | .reservedHigh _ => 0

/-- Both components of a pair lie in [-0.5, 0.5] (00_scope.md R12). -/
def NoisePair.inRange (p : NoisePair) : Bool := inHalfRange p.u1 && inHalfRange p.u2

/-- A free value of the range: any value in [-0.5, 0.5], for some free pattern. -/
def clipToRange (u : F64) : F64 := if inHalfRange u then u else 0

/-- The `n`-th free pair (00_scope.md R12; log 4). -/
def freePair (n : Nat) : NoisePair :=
  { u1 := clipToRange (Config.noiseU1 n), u2 := clipToRange (Config.noiseU2 n) }

/-- `draw NoiseDraw` (00_scope.md R6, R12): the next supplied pair, or a free pair of the range when
none is supplied, since the source never withholds one (70_reset_and_hazards.md R135). `none` when the
supplied pair leaves the range, which is outside the model (D9, I3; log 5). -/
def drawNoise (s : State) : Option (NoisePair × State) :=
  match s.noise with
  | [] => some (freePair s.drawn, { s with drawn := s.drawn + 1 })
  | p :: rest =>
    if p.inRange then some (p, { s with noise := rest, drawn := s.drawn + 1 }) else none

/-- The platform's reset (70_reset_and_hazards.md R125): every piece of the block's state takes its
reset value; the host's inputs, the words it holds and the noise to come are not the block's. A
transaction in progress is abandoned with no effect, so it plays no part. -/
def resetBlock (_inProgress : Option TPattern) (s : State) : State :=
  { State.reset with
    inputs := s.inputs
    returned := s.returned
    noise := s.noise
    drawn := s.drawn }

/-- An illegal command word: the error report, and no other write (30_encoding.md R61,
60_exceptions.md R111). -/
def rejectCommand (c : ErrCause) (s : State) : Host.Outcome State Fault Refusal := .next (s.raise c)

end Sys2Proof.Machine
end

