-- ==== Sys2Proof/Machine/Bus.lean ====
section
/-! DEFINITION. The host transactions that are not commands (20_memory.md R41, R42). -/

namespace Sys2Proof.Machine

/-- RD: the slot's word goes to the host; the block's state does not change (R41). -/
def execRd (slot : Slot) (s : State) : Host.Outcome State Fault Refusal :=
  .next (s.giveHost (busRead slot s))

/-- WR XHI (10_state.md R28). -/
def execWrXhi (d : Word) (s : State) : Host.Outcome State Fault Refusal := .next (s.setXhi d)

/-- WR XLO (10_state.md R29). -/
def execWrXlo (d : Word) (s : State) : Host.Outcome State Fault Refusal := .next (s.setXlo d)

/-- WR of a read-only or reserved slot: BERR(0x4) or BERR(0x5), nothing else changes, the data is not
looked at (R42). -/
def execWrBad (slot : Slot) (_d : Word) (s : State) : Host.Outcome State Fault Refusal :=
  match slot.access.writeError with
  | some c => .next (s.raise c)
  | none => .refused .illFormed

end Sys2Proof.Machine
end

