-- ==== Sys2Proof/Machine/Control.lean ====
section
/-! DEFINITION. NOP, DRST and ECLR (40_control.md). -/

namespace Sys2Proof.Machine

/-- NOP: no state changes (R70). -/
def execNop (s : State) : Host.Outcome State Fault Refusal := .next s

/-- DRST: the fresh dither state; OUT, XHI, XLO, FRES and the error report are unchanged (R72). -/
def execDrst (s : State) : Host.Outcome State Fault Refusal := .next s.freshDither

/-- ECLR: the error report is cleared (R74). -/
def execEclr (s : State) : Host.Outcome State Fault Refusal := .next s.clearErrors

end Sys2Proof.Machine
end

