-- ==== Sys2Proof/Machine/ExtFloat.lean ====
section
/-! DEFINITION. XCVT (41_extfloat.md). -/

namespace Sys2Proof.Machine

/-- The conversion of an exponent field and two mantissa words (R81 to R84): the exponent field is one
signed integer (R80, 90_conflicts.md C1), and each of the two products and their sum is rounded on its
own (R84). -/
def convertExt (imm : BitVec 16) (xhi xlo : Word) : F64 :=
  let e16 := sext16 imm
  let hi := zext32 xhi
  let lo := zext32 xlo
  if e16 = 0 ∧ hi = 0 ∧ lo = 0 then 0
  else if e16 = 32767 then extSat
  else
    let e := e16 - 16383 - 31
    f64Add (scale64 hi e) (scale64 lo (e - 32))

/-- XCVT: `FRES <- bits64(F)`, and nothing else (R81, R89). -/
def execXcvt (imm : BitVec 16) (s : State) : Host.Outcome State Fault Refusal :=
  .next (s.setFres (convertExt imm s.xhi s.xlo))

end Sys2Proof.Machine
end

