-- ==== Sys2Proof/Machine/Reduce.lean ====
section
/-! DEFINITION. BYP8, Q16 and Q16D (42_reduce.md). -/

namespace Sys2Proof.Machine

/-- The pre-rounding value `v(s)` of a sample (R90). -/
def sampleValue (imm : BitVec 16) : F64 := f64Add (f64Div (i2f (sext16 imm)) f256) f128

/-- The error-fed-back value `xe`: from `v`, the rounded products of the taps in the order k = 0 to 4,
tap `k` reading `H[(IDX - k) mod 8]` (R96, R98). -/
def feedback (hist : BitVec 3 → F64) (idx : BitVec 3) (v : F64) : F64 :=
  taps.foldl (fun acc tap => f64Add acc (f64Mul (hist (idx - tap.1)) tap.2)) v

/-- `xe` of a sample in a state, before the command changes IDX or H (R96). -/
def ditherInput (imm : BitVec 16) (s : State) : F64 := feedback s.hist s.idx (sampleValue imm)

/-- The rounded result `r` of an error-fed-back value and a noise pair (R96, R99). -/
def ditherResult (xe : F64) (p : NoisePair) : F64 := roundHalfUp (f64Add xe (f64Add p.u1 p.u2))

/-- What Q16D writes (R96, R100): IDX moves first, the error of the unclamped result is written at the
new IDX, OUT takes the clamped result (R91). -/
def ditherWrite (xe r : F64) (s : State) : State :=
  let next := s.idx + 1
  ((s.setIdx next).setHist next (f64Sub xe r)).setOut (clampbyte r)

/-- BYP8: the sample is the output (R92). -/
def execByp8 (b : Byte) (s : State) : Host.Outcome State Fault Refusal := .next (s.setOut b)

/-- Q16: nominal reduction (R94). -/
def execQ16 (imm : BitVec 16) (s : State) : Host.Outcome State Fault Refusal :=
  .next (s.setOut (clampbyte (roundHalfUp (sampleValue imm))))

/-- Q16D: error-feedback dithered reduction with one fresh noise pair (R96). -/
def execQ16d (imm : BitVec 16) (s : State) : Host.Outcome State Fault Refusal :=
  match drawNoise s with
  | none => .refused .noiseOutOfRange
  | some (p, s1) =>
    let xe := ditherInput imm s
    .next (ditherWrite xe (ditherResult xe p) s1)

end Sys2Proof.Machine
end

