-- ==== Sys2Proof/Machine/Dispatch.lean ====
section
/-! DEFINITION. One arm per row of the opcode table (30_encoding.md R59). -/

namespace Sys2Proof.Machine

def exec (i : Instr) (s : State) : Host.Outcome State Fault Refusal :=
  match i with
  | .nop => Sys2Proof.Machine.execNop s
  | .drst => Sys2Proof.Machine.execDrst s
  | .eclr => Sys2Proof.Machine.execEclr s
  | .byp8 b => Sys2Proof.Machine.execByp8 b s
  | .q16 imm => Sys2Proof.Machine.execQ16 imm s
  | .q16d imm => Sys2Proof.Machine.execQ16d imm s
  | .xcvt imm => Sys2Proof.Machine.execXcvt imm s
  | .rd slot => Sys2Proof.Machine.execRd slot s
  | .wrXhi d => Sys2Proof.Machine.execWrXhi d s
  | .wrXlo d => Sys2Proof.Machine.execWrXlo d s
  | .wrBad slot d => Sys2Proof.Machine.execWrBad slot d s

end Sys2Proof.Machine
end

