-- ==== Sys2Proof/Machine/Step.lean ====
section
/-! DEFINITION. One step is one input, performed completely (00_scope.md R11, 20_memory.md R50, R51). -/

namespace Sys2Proof.Machine

/-- One step: take the next input and perform it. A transaction is decoded and executed, or reported as
an illegal command (30_encoding.md R61); reset is not a transaction (70_reset_and_hazards.md R125);
with nothing pending there is no step (00_scope.md R11; log 2). -/
def step (s : State) : Host.Outcome State Fault Refusal :=
  match s.inputs with
  | [] => .fault .noInput
  | .reset inProgress :: rest => .next (resetBlock inProgress (s.withInputs rest))
  | .bus t :: rest =>
    match decode t with
    | .ok i => exec i (s.withInputs rest)
    | .error c => rejectCommand c (s.withInputs rest)

/-- The state in which the host's next transaction is the table's word (log 1, log 12). -/
def State.withFetchWord (s : State) (nbits w : Nat) : State :=
  s.withInputs (.bus (tableTPattern nbits w) :: s.inputs)

end Sys2Proof.Machine
end

