-- ==== Sys2Proof/Machine/Asm.lean ====
section
/-! DEFINITION. What a host writes: assembler lines, pseudo-instructions, operand bytes and the run
sequence (30_encoding.md R64, R65; 20_memory.md R46; 70_reset_and_hazards.md R128). The characters of a line
are read in AsmText.lean. -/

namespace Sys2Proof.Machine

/-- One line of the assembler syntax, its immediate as the number written (30_encoding.md R64). -/
inductive AsmLine where
  | rd (slot : Slot)
  | wr (slot : Slot) (imm32 : Int)
  | nop
  | drst
  | eclr
  | byp8 (imm8 : Int)
  | q16 (simm16 : Int)
  | q16d (simm16 : Int)
  | xcvt (imm16 : Int)
deriving DecidableEq, Repr

/-- The value if it lies in the range, else an assembly error: nothing is truncated (R64). -/
def inImmRange (lo hi v : Int) (t : TPattern) : Option TPattern := if lo ≤ v ∧ v ≤ hi then some t else none

/-- The T pattern of a line, or `none` for an immediate outside its range (R64). R64 gives `imm32` no range:
0 to 0xFFFFFFFF, no negative value, is a DESIGN CHOICE (log 18). It gives `imm16` two written forms: that any
number of either range assembles, in whichever form it is written, is a DESIGN CHOICE (log 19). -/
def assemble : AsmLine → Option TPattern
  | .rd slot => some (tRead slot.addr)
  | .wr slot v => inImmRange 0 0xFFFFFFFF v (tWrite slot.addr (BitVec.ofInt 32 v))
  | .nop => some (tWrite 0 0x00000000)
  | .drst => some (tWrite 0 0x01000000)
  | .eclr => some (tWrite 0 0x02000000)
  | .byp8 v => inImmRange 0 255 v (tWrite 0 (0x10000000 ||| BitVec.ofInt 32 v))
  | .q16 v => inImmRange (-32768) 32767 v (tWrite 0 (0x11000000 ||| (BitVec.ofInt 32 v &&& 0xFFFF)))
  | .q16d v => inImmRange (-32768) 32767 v (tWrite 0 (0x12000000 ||| (BitVec.ofInt 32 v &&& 0xFFFF)))
  | .xcvt v => inImmRange (-32768) 0xFFFF v (tWrite 0 (0x20000000 ||| (BitVec.ofInt 32 v &&& 0xFFFF)))

/-- The IMM of a 16-bit sample's file bytes (20_memory.md R46). -/
def sampleImm16 (b0 b1 : Byte) : BitVec 16 := b0 ++ b1

/-- The IMM of an 8-bit sample's file byte (R46). -/
def sampleImm8 (b0 : Byte) : BitVec 16 := 0#8 ++ b0

/-- The exponent field of the ten file bytes (R46). -/
def extImm (e : Vector Byte 10) : BitVec 16 := e[0] ++ e[1]

/-- The mantissa word hi of the ten file bytes (R46). -/
def extHi (e : Vector Byte 10) : Word := e[2] ++ e[3] ++ e[4] ++ e[5]

/-- The mantissa word lo of the ten file bytes (R46). -/
def extLo (e : Vector Byte 10) : Word := e[6] ++ e[7] ++ e[8] ++ e[9]

/-- The pseudo-instructions (30_encoding.md R65). -/
inductive Pseudo where
  | xld80 (e : Vector Byte 10)
  | rdf64
  | rdh (i : BitVec 3)
  | rdout
  | put16 (s : Int)
  | put16d (s : Int)
  | put8 (b : Int)
deriving DecidableEq, Repr

/-- Their expansions (R65). -/
def Pseudo.expand : Pseudo → List AsmLine
  | .xld80 e => [.wr .xhi (extHi e).toNat, .wr .xlo (extLo e).toNat, .xcvt (extImm e).toNat]
  | .rdf64 => [.rd .fresl, .rd .fresh]
  | .rdh i => [.rd (.hl i), .rd (.hh i)]
  | .rdout => [.rd .status]
  | .put16 s => [.q16 s, .rd .status]
  | .put16d s => [.q16d s, .rd .status]
  | .put8 b => [.byp8 b, .rd .status]

/-- The 64-bit value whose low and high words two reads returned (R65, 20_memory.md R45). -/
def joinWords (low high : Word) : F64 := high ++ low

/-- The output byte of a STATUS word read (R65 `RDOUT`). -/
def outOfStatus (w : Word) : Byte := w.extractLsb' 0 8

/-- The samples of one run, channel 0 of each frame (70_reset_and_hazards.md R128). -/
inductive RunSamples where
  | eightBit (samples : List Byte)
  | sixteenBit (dither : Bool) (samples : List (BitVec 16))
deriving DecidableEq, Repr

/-- The run sequence a host issues for the behaviour of doc00 (R128), with `ECLR` as its first line. -/
def runSequence (rate : Vector Byte 10) (samples : RunSamples) : List AsmLine :=
  [.eclr] ++ Pseudo.expand (.xld80 rate) ++ Pseudo.expand .rdf64 ++
  (match samples with
    | .eightBit bs => bs.flatMap fun b => Pseudo.expand (.put8 b.toNat)
    | .sixteenBit false ss => ss.flatMap fun s => Pseudo.expand (.put16 s.toInt)
    | .sixteenBit true ss => AsmLine.drst :: ss.flatMap fun s => Pseudo.expand (.put16d s.toInt)) ++
  [.rd .status]

end Sys2Proof.Machine
end

