-- ==== Sys2Proof/Machine/AsmText.lean ====
section
/-! DEFINITION. The characters of a program: one transaction or pseudo-instruction per line, `;` starting a
comment (30_encoding.md R64, R65). What R64 leaves to the reader (blanks, the forms of a number, the ten bytes
of XLD80 as twenty hexadecimal digits) is log 17. -/

namespace Sys2Proof.Machine

/-- The line up to its comment (R64). -/
def dropComment : List Char → List Char
  | [] => []
  | c :: cs => if c = ';' then [] else c :: dropComment cs

/-- A word that has ended, before the words after it. -/
def addWord (cur : List Char) (rest : List (List Char)) : List (List Char) :=
  if cur = [] then rest else cur :: rest

/-- The words of a line: blanks separate them, and a comma is a word of its own. -/
def wordsOf (cur : List Char) : List Char → List (List Char)
  | [] => addWord cur []
  | c :: cs =>
    if c = ' ' ∨ c = '\t' then addWord cur (wordsOf [] cs)
    else if c = ',' then addWord cur ([','] :: wordsOf [] cs)
    else wordsOf (cur ++ [c]) cs

/-- The value of a digit. -/
def digitOf (c : Char) : Option Nat :=
  if '0' ≤ c ∧ c ≤ '9' then some (c.toNat - 48)
  else if 'A' ≤ c ∧ c ≤ 'F' then some (c.toNat - 55)
  else if 'a' ≤ c ∧ c ≤ 'f' then some (c.toNat - 87)
  else none

/-- The number the digits write after those already read. -/
def digitsFrom (base n : Nat) : List Char → Option Nat
  | [] => some n
  | c :: cs =>
    match digitOf c with
    | none => none
    | some d => if d < base then digitsFrom base (n * base + d) cs else none

/-- A number: `0x` and hexadecimal digits, otherwise decimal (00_scope.md R6). -/
def numberOf : List Char → Option Nat
  | [] => none
  | '0' :: 'x' :: c :: cs => digitsFrom 16 0 (c :: cs)
  | c :: cs => digitsFrom 10 0 (c :: cs)

/-- An immediate: `#`, a sign or none, a number (R64). -/
def immediateOf : List Char → Option Int
  | '#' :: '-' :: cs => (numberOf cs).map fun n => -(n : Int)
  | '#' :: cs => (numberOf cs).map fun n => (n : Int)
  | _ => none

/-- An index 0 to 7, one digit. -/
def indexOf : List Char → Option (BitVec 3)
  | [c] => match digitOf c with
    | some d => if d < 8 then some (BitVec.ofNat 3 d) else none
    | none => none
  | _ => none

/-- A slot: one of its names, or its number 0 to 63 (R64). -/
def slotOf (w : List Char) : Option Slot :=
  if w = "CMD".toList then some .cmd
  else if w = "STATUS".toList then some .status
  else if w = "XHI".toList then some .xhi
  else if w = "XLO".toList then some .xlo
  else if w = "FRESL".toList then some .fresl
  else if w = "FRESH".toList then some .fresh
  else match w with
    | 'H' :: 'L' :: i => (indexOf i).map .hl
    | 'H' :: 'H' :: i => (indexOf i).map .hh
    | _ => match numberOf w with
      | some a => if a < 64 then some (Slot.ofAddr (BitVec.ofNat 6 a)) else none
      | none => none

/-- Ten bytes as `#` and twenty hexadecimal digits, the first byte first. -/
def tenBytesOf : List Char → Option (Vector Byte 10)
  | '#' :: cs =>
    if cs.length = 20 then
      (digitsFrom 16 0 cs).map fun n => Vector.ofFn fun i : Fin 10 => BitVec.ofNat 8 (n / 2 ^ (8 * (9 - i.val)))
    else none
  | _ => none

/-- What a line holds. -/
inductive SourceLine where
  | blank
  | line (l : AsmLine)
  | pseudo (p : Pseudo)
  | error
deriving DecidableEq, Repr

/-- A line whose operand was read, or an error. -/
def lineWith {α : Type} (operand : Option α) (make : α → SourceLine) : SourceLine :=
  match operand with
  | some x => make x
  | none => .error

/-- What a line of text holds (R64, R65). -/
def readLine (text : List Char) : SourceLine :=
  match wordsOf [] (dropComment text) with
  | [] => .blank
  | [m] =>
    if m = "NOP".toList then .line .nop
    else if m = "DRST".toList then .line .drst
    else if m = "ECLR".toList then .line .eclr
    else if m = "RDF64".toList then .pseudo .rdf64
    else if m = "RDOUT".toList then .pseudo .rdout
    else .error
  | [m, x] =>
    if m = "RD".toList then lineWith (slotOf x) fun slot => .line (.rd slot)
    else if m = "BYP8".toList then lineWith (immediateOf x) fun v => .line (.byp8 v)
    else if m = "Q16".toList then lineWith (immediateOf x) fun v => .line (.q16 v)
    else if m = "Q16D".toList then lineWith (immediateOf x) fun v => .line (.q16d v)
    else if m = "XCVT".toList then lineWith (immediateOf x) fun v => .line (.xcvt v)
    else if m = "XLD80".toList then lineWith (tenBytesOf x) fun e => .pseudo (.xld80 e)
    else if m = "RDH".toList then lineWith (indexOf x) fun i => .pseudo (.rdh i)
    else if m = "PUT16".toList then lineWith (immediateOf x) fun v => .pseudo (.put16 v)
    else if m = "PUT16D".toList then lineWith (immediateOf x) fun v => .pseudo (.put16d v)
    else if m = "PUT8".toList then lineWith (immediateOf x) fun v => .pseudo (.put8 v)
    else .error
  | [m, slot, comma, x] =>
    if m = "WR".toList ∧ comma = [','] then
      lineWith (slotOf slot) fun a => lineWith (immediateOf x) fun v => .line (.wr a v)
    else .error
  | _ => .error

/-- All the patterns, or none if one line does not assemble. -/
def assembleAll : List AsmLine → Option (List TPattern)
  | [] => some []
  | l :: ls =>
    match assemble l, assembleAll ls with
    | some t, some ts => some (t :: ts)
    | some _, none => none
    | none, some _ => none
    | none, none => none

/-- The T patterns of one line of text; `none` is an assembly error (R64). -/
def assembleText (text : List Char) : Option (List TPattern) :=
  match readLine text with
  | .blank => some []
  | .line l => assembleAll [l]
  | .pseudo p => assembleAll p.expand
  | .error => none

end Sys2Proof.Machine
end

