-- ==== Sys2Proof/Safety.lean ====
section
/-! DEFINITION. The terms in which claims are made: what a run without error is, which states keep the
spec's invariants, and what a binary64 pattern is worth as a rational number. -/

namespace Sys2Proof.Machine

/-- The premise of a claim about a run: no error was reported (60_exceptions.md R113). -/
abbrev State.errorFree (s : State) : Prop := s.ill = false ∧ s.berr = false

/-- Two states agree on all nine pieces of architectural state (10_state.md R20). -/
structure SameBlock (s t : State) : Prop where
  h : t.h = s.h
  idx : t.idx = s.idx
  out : t.out = s.out
  xhi : t.xhi = s.xhi
  xlo : t.xlo = s.xlo
  fres : t.fres = s.fres
  ill : t.ill = s.ill
  berr : t.berr = s.berr
  ecause : t.ecause = s.ecause

/-- ECAUSE tells of the sticky bits: it is 0 exactly while no error is pending, it is one of the five
codes otherwise, and the sticky bit of its code is set (10_state.md R27, 60_exceptions.md R110). -/
structure State.ErrorConsistent (s : State) : Prop where
  none_iff : s.ecause = 0 ↔ s.errorFree
  code_le : s.ecause ≤ 5
  ill_of_code : 1 ≤ s.ecause → s.ecause ≤ 3 → s.ill = true
  berr_of_code : 4 ≤ s.ecause → s.berr = true

/-- Whether a pattern is finite (00_scope.md R7). -/
def f64Finite (b : F64) : Bool := decide (f64Exp b ≠ 0x7FF)

/-- The rational number a finite value denotes (00_scope.md R7); 0 for the others. -/
def FVal.toRat : FVal → ℚ
  | .fin neg m e => (if neg then -1 else 1) * m * 2 ^ e
  | .inf _ => 0
  | .nan => 0

/-- The rational number a finite pattern denotes. -/
def f64Val (b : F64) : ℚ := (FVal.ofBits b).toRat

/-- The least magnitude that rounds to 2^1024 or more: halfway from the largest finite value to 2^1024. -/
def overflowBound : ℚ := 2 ^ 1024 - 2 ^ 970

/-- `r` is the exact `x` rounded to binary64 with round-to-nearest ties-to-even (00_scope.md R7): an
infinity of the sign of `x` when the magnitude would round to 2^1024 or more, and otherwise a finite
pattern no farther from `x` than any other, with an even last place when another value is as near. -/
def IsRounded (x : ℚ) (r : F64) : Prop :=
  (overflowBound ≤ |x| ∧ r = packF64 (decide (x < 0)) infMag) ∨
  (|x| < overflowBound ∧ f64Finite r = true ∧
    (∀ c : F64, f64Finite c = true → |f64Val r - x| ≤ |f64Val c - x|) ∧
    (∀ c : F64, f64Finite c = true → f64Val c ≠ f64Val r → |f64Val r - x| = |f64Val c - x| →
      f64Mag r % 2 = 0))

/-- The history invariant of 10_state.md R32. -/
def State.HistoryBounded (s : State) : Prop :=
  ∀ i, f64Finite (s.hist i) = true ∧ |f64Val (s.hist i)| ≤ 3 / 2 + 1 / 2 ^ 40

/-- Every supplied noise pair lies in the range (00_scope.md R12). -/
abbrev State.NoiseAdmissible (s : State) : Prop := ∀ p ∈ s.noise, p.inRange = true

end Sys2Proof.Machine
end

