-- ==== Sys2Proof/Certificates/Slice0/Obligations.lean ====
section
/-! DEFINITION. The statements for the provers, each with the rule it formalises. -/

namespace Sys2Proof.Claims

open Sys2Proof Sys2Proof.Machine

/-- The error report of 60_exceptions.md R111, written out. -/
def reported (isIll : Bool) (code : BitVec 4) (s : State) : State :=
  { s with
    ecause := if s.ill = false ∧ s.berr = false then code else s.ecause
    ill := if isIll then true else s.ill
    berr := if isIll then s.berr else true }

/-- The operand constraint of 30_encoding.md R60 fails. -/
def badOperand (op : Nat) (imm : BitVec 16) : Prop :=
  (op ∈ [0x00, 0x01, 0x02] ∧ imm ≠ 0) ∨ (op = 0x10 ∧ imm.toNat / 256 ≠ 0)

/-- The instruction of a legal command word (30_encoding.md R59). -/
def commandNamed (op : Nat) (imm : BitVec 16) : Instr :=
  if op = 0x00 then .nop
  else if op = 0x01 then .drst
  else if op = 0x02 then .eclr
  else if op = 0x10 then .byp8 (BitVec.ofNat 8 imm.toNat)
  else if op = 0x11 then .q16 imm
  else if op = 0x12 then .q16d imm
  else .xcvt imm

/-- `Execute(d)` of 30_encoding.md R61, on the word as a number. -/
def ExecutesAs (d : Word) (s : State) (o : Host.Outcome State Fault Refusal) : Prop :=
  let op := d.toNat / 2 ^ 24
  let rsv := d.toNat / 2 ^ 16 % 2 ^ 8
  let imm := BitVec.ofNat 16 d.toNat
  (op ∉ [0x00, 0x01, 0x02, 0x10, 0x11, 0x12, 0x20] → o = .next (reported true 1 s)) ∧
  (op ∈ [0x00, 0x01, 0x02, 0x10, 0x11, 0x12, 0x20] →
    (rsv ≠ 0 → o = .next (reported true 2 s)) ∧
    (rsv = 0 →
      (badOperand op imm → o = .next (reported true 3 s)) ∧
      (¬ badOperand op imm → o = exec (commandNamed op imm) s)))

/-- How a command is issued: every word with its operation code, written to CMD in any state, is rejected for
a reserved bit (30_encoding.md R61 cause 0x2), then for its operand (cause 0x3), and is else performed. -/
def CommandRule (op : BitVec 8) (legal : BitVec 16 → Bool) (make : BitVec 16 → Instr) : Prop :=
  ∀ (rsv : BitVec 8) (imm : BitVec 16) (s : State),
    step { s with inputs := .bus (tWrite 0 (op ++ (rsv ++ imm))) :: s.inputs } =
      if rsv ≠ 0 then .next (reported true 2 s)
      else if legal imm then exec (make imm) s
      else .next (reported true 3 s)

/-- The word `BusRead(A)` returns (20_memory.md R41), on numbers. -/
def readNumber (a : Nat) (s : State) : Nat :=
  if a = 1 then
    s.out.toNat + 2 ^ 8 * s.idx.toNat + 2 ^ 16 * s.ill.toNat + 2 ^ 17 * s.berr.toNat + 2 ^ 20 * s.ecause.toNat
  else if a = 2 then s.xhi.toNat
  else if a = 3 then s.xlo.toNat
  else if a = 4 then s.fres.toNat % 2 ^ 32
  else if a = 5 then s.fres.toNat / 2 ^ 32
  else if 16 ≤ a ∧ a < 32 then
    let v := (s.hist (BitVec.ofNat 3 ((a - 16) / 2))).toNat
    if a % 2 = 0 then v % 2 ^ 32 else v / 2 ^ 32
  else 0

/-- The next step performs this instruction. -/
def Performs (s : State) (i : Instr) : Prop := ∃ t rest, s.inputs = .bus t :: rest ∧ decode t = .ok i

/-- The next step is the platform's reset. -/
def Resets (s : State) : Prop := ∃ p rest, s.inputs = .reset p :: rest

/-- The slots whose contents an instruction may change. -/
def touches (i : Instr) (s : State) (slot : Slot) : Prop :=
  match i with
  | .nop => False
  | .drst => slot = .status ∨ (∃ k, slot = .hl k) ∨ ∃ k, slot = .hh k
  | .eclr => slot = .status
  | .byp8 _ => slot = .status
  | .q16 _ => slot = .status
  | .q16d _ => slot = .status ∨ slot = .hl (s.idx + 1) ∨ slot = .hh (s.idx + 1)
  | .xcvt _ => slot = .fresl ∨ slot = .fresh
  | .rd _ => False
  | .wrXhi _ => slot = .xhi
  | .wrXlo _ => slot = .xlo
  | .wrBad _ _ => slot = .status

/-- The bits of STATUS an instruction may change. -/
def touchesStatusBit (i : Instr) (b : Nat) : Prop :=
  match i with
  | .nop => False
  | .drst => 8 ≤ b ∧ b ≤ 10
  | .eclr => b = 16 ∨ b = 17 ∨ (20 ≤ b ∧ b ≤ 23)
  | .byp8 _ => b ≤ 7
  | .q16 _ => b ≤ 7
  | .q16d _ => b ≤ 10
  | .xcvt _ => False
  | .rd _ => False
  | .wrXhi _ => False
  | .wrXlo _ => False
  | .wrBad _ _ => b = 17 ∨ (20 ≤ b ∧ b ≤ 23)

/-- `xe` of 42_reduce.md R96 from the five weighted errors, in the order of R98. -/
def tapSum (v e0 e1 e2 e3 e4 : F64) : F64 :=
  f64Add (f64Add (f64Add (f64Add (f64Add v
    (f64Mul e0 0x40004395810624DD)) (f64Mul e1 0xC00151EB851EB852)) (f64Mul e2 0x3FFF5810624DD2F2))
    (f64Mul e3 0xBFF970A3D70A3D71)) (f64Mul e4 0x3FE3AD42C3C9EECC)

/-- `r` of 42_reduce.md R96 from `xe` and a noise pair. -/
def roundedWith (xe : F64) (p : NoisePair) : F64 :=
  floor64 (f64Add (f64Add xe (f64Add p.u1 p.u2)) 0x3FE0000000000000)

/-- The pre-rounding value of a sample (42_reduce.md R90). -/
def preRounding (imm : BitVec 16) : F64 :=
  f64Add (f64Div (i2f imm.toInt) 0x4070000000000000) 0x4060000000000000

/-- The recurrence of 42_reduce.md R104: from the errors so far, newest first, the errors after the
samples and the output bytes; an error before the first is +0.0. -/
def filterRun : List F64 → List (BitVec 16 × NoisePair) → List F64 × List Byte
  | errors, [] => (errors, [])
  | errors, (imm, p) :: rest =>
    let e := fun k => errors.getD k 0
    let xe := tapSum (preRounding imm) (e 0) (e 1) (e 2) (e 3) (e 4)
    let r := roundedWith xe p
    let after := filterRun (f64Sub xe r :: errors) rest
    (after.1, clampbyte r :: after.2)

/-- Q16D of each sample in turn, and the output byte after each. -/
def ditherRun : List (BitVec 16) → State → Option (State × List Byte)
  | [], s => some (s, [])
  | imm :: rest, s =>
    match exec (.q16d imm) s with
    | .next t =>
      match ditherRun rest t with
      | some (u, bytes) => some (u, t.out :: bytes)
      | none => none
    | .fault _ => none
    | .refused _ => none

/-- The 32 bits of `hi * 2 ^ (e16 - 16414)` and `lo * 2 ^ (e16 - 16446)`, rounded each on its own
(41_extfloat.md R81, R84). -/
def scaledHi (imm : BitVec 16) (xhi : Word) : F64 := scale64 xhi.toNat (imm.toInt - 16414)

/-- See `scaledHi`. -/
def scaledLo (imm : BitVec 16) (xlo : Word) : F64 := scale64 xlo.toNat (imm.toInt - 16446)

end Sys2Proof.Claims

open Sys2Proof Sys2Proof.Machine Sys2Proof.Claims

/-! ### Encoding -/

/-- R55 to R60: every operand of every instruction survives encoding and decoding. -/
def Obligations.DecodeOfEncodeIsTheInstruction : Prop :=
  ∀ i : Instr, i.wellFormed = true → decode (encode i) = .ok i

/-- R55, R62, R63: a pattern that decodes to an instruction is that instruction's encoding, a read's
ignored data field apart. -/
def Obligations.EncodeOfDecodeIsThePattern : Prop :=
  ∀ (t : TPattern) (i : Instr), decode t = .ok i →
    (fieldW t = true → encode i = t) ∧
    (fieldW t = false → encode i = tRead (fieldA t))

/-- R66: the encoding examples: the source assembles to the T pattern (its characters read as log 17 says), and
the T pattern decodes to the instruction. -/
def Obligations.EncodingExamplesDecode : Prop :=
  assembleText "Q16 #256".toList = some [0x4011000100] ∧ decode 0x4011000100 = .ok (.q16 256) ∧
  assembleText "Q16 #-256".toList = some [0x401100FF00] ∧
  decode 0x401100FF00 = .ok (.q16 (BitVec.ofInt 16 (-256))) ∧
  assembleText "Q16D #-32768".toList = some [0x4012008000] ∧
  decode 0x4012008000 = .ok (.q16d (BitVec.ofInt 16 (-32768))) ∧
  assembleText "BYP8 #200".toList = some [0x40100000C8] ∧ decode 0x40100000C8 = .ok (.byp8 200) ∧
  assembleText "XCVT #0x400E".toList = some [0x402000400E] ∧ decode 0x402000400E = .ok (.xcvt 0x400E) ∧
  assembleText "DRST".toList = some [0x4001000000] ∧ decode 0x4001000000 = .ok .drst ∧
  assembleText "WR XHI, #0xAC440000".toList = some [0x42AC440000] ∧
  decode 0x42AC440000 = .ok (.wrXhi 0xAC440000) ∧
  assembleText "RD STATUS".toList = some [0x0100000000] ∧ decode 0x0100000000 = .ok (.rd .status)

/-- R61 (with R59, R60, R111): a write of any word to CMD is checked in the order opcode, reserved
field, operand; the first failing check is reported and nothing else changes; a legal word is performed. -/
def Obligations.CommandWordsRunInCheckOrder : Prop :=
  ∀ (d : Word) (s : State) (rest : List HostInput), s.inputs = .bus (tWrite 0 d) :: rest →
    ExecutesAs d { s with inputs := rest } (step s)

/-! ### The bus -/

/-- R42: what `BusWrite(A, d)` does, by address. -/
def Obligations.BusWriteFollowsTheAddressCases : Prop :=
  ∀ (a : BitVec 6) (d : Word) (s : State) (rest : List HostInput), s.inputs = .bus (tWrite a d) :: rest →
    (a.toNat = 0 → ExecutesAs d { s with inputs := rest } (step s)) ∧
    (a.toNat = 2 → step s = .next { s with inputs := rest, xhi := d }) ∧
    (a.toNat = 3 → step s = .next { s with inputs := rest, xlo := d }) ∧
    (a.toNat ∈ [1, 4, 5] ∨ (16 ≤ a.toNat ∧ a.toNat ≤ 31) →
      step s = .next (reported false 4 { s with inputs := rest })) ∧
    ((6 ≤ a.toNat ∧ a.toNat ≤ 15) ∨ 32 ≤ a.toNat →
      step s = .next (reported false 5 { s with inputs := rest }))

/-- R41, R45: what `BusRead(A)` returns, by address, whatever the ignored data field holds; no state of
the block changes. -/
def Obligations.BusReadFollowsTheAddressCases : Prop :=
  ∀ (t : TPattern) (s : State) (rest : List HostInput), s.inputs = .bus t :: rest → fieldW t = false →
    step s = .next { s with
      inputs := rest
      returned := s.returned ++ [BitVec.ofNat 32 (readNumber (fieldA t).toNat s)] } ∧
    readNumber (fieldA t).toNat s < 2 ^ 32

/-- R22: the fields of STATUS; every bit not listed reads 0. -/
def Obligations.StatusFieldsStandAtTheirBits : Prop :=
  ∀ s : State,
    (busRead .status s).extractLsb' 0 8 = s.out ∧
    (busRead .status s).extractLsb' 8 3 = s.idx ∧
    (busRead .status s).extractLsb' 11 5 = 0 ∧
    (busRead .status s).getLsbD 16 = s.ill ∧
    (busRead .status s).getLsbD 17 = s.berr ∧
    (busRead .status s).extractLsb' 18 2 = 0 ∧
    (busRead .status s).extractLsb' 20 4 = s.ecause ∧
    (busRead .status s).extractLsb' 24 8 = 0

/-- R123: the read-back shows every piece of architectural state. -/
def Obligations.ReadBackDeterminesTheBlock : Prop :=
  ∀ s t : State, (∀ slot, busRead slot s = busRead slot t) → SameBlock s t

/-- R41: RD completes for every slot; the word goes to the host and nothing else changes. -/
def Obligations.ReadGivesTheSlotWord : Prop :=
  ∀ (slot : Slot) (s : State),
    exec (.rd slot) s = .next { s with returned := s.returned ++ [busRead slot s] }

/-- R28, R29: WR XHI and WR XLO replace the contents with the word written, and change nothing else. -/
def Obligations.MantissaWritesReplaceTheWord : Prop :=
  ∀ (d : Word) (s : State),
    exec (.wrXhi d) s = .next { s with xhi := d } ∧ exec (.wrXlo d) s = .next { s with xlo := d }

/-- R42, R110, R111: a write of a read-only slot raises BERR(0x4), of a reserved slot BERR(0x5), and
changes nothing else. -/
def Obligations.WritesOfOtherSlotsRaiseBerr : Prop :=
  ∀ (slot : Slot) (d : Word) (s : State),
    (slot.access = .readOnly → exec (.wrBad slot d) s = .next (reported false 4 s)) ∧
    (slot.access = .reserved → exec (.wrBad slot d) s = .next (reported false 5 s))

/-! ### Steps, reset and errors -/

/-- R11, R50, R51: a step is the next transaction, performed completely. -/
def Obligations.StepRunsTheDecodedInstruction : Prop :=
  ∀ (s : State) (t : TPattern) (rest : List HostInput) (i : Instr),
    s.inputs = .bus t :: rest → decode t = .ok i → step s = exec i { s with inputs := rest }

/-- R36: the reset values, of the state after reset and after a reset event in any state. -/
def Obligations.ResetLeavesTheStatedValues : Prop :=
  ∀ s t : State, (t = State.reset ∨ (Resets s ∧ step s = .next t)) →
    (∀ i, t.hist i = 0) ∧ t.idx = 0 ∧ t.out = 0 ∧ t.xhi = 0 ∧ t.xlo = 0 ∧ t.fres = 0 ∧
    t.ill = false ∧ t.berr = false ∧ t.ecause = 0

/-- R125: reset always completes, and no noise pair is consumed by it. -/
def Obligations.ResetCompletesWithoutNoise : Prop :=
  ∀ s : State, Resets s →
    ∃ t, step s = .next t ∧ t.noise = s.noise ∧ t.drawn = s.drawn ∧ t.returned = s.returned ∧
      t.inputs = s.inputs.tail

/-- R127: after reset every slot reads 0. -/
def Obligations.EverySlotReadsZeroAfterReset : Prop := ∀ slot, busRead slot State.reset = 0

/-- The model's choice (log 2, from R11): a step faults exactly when nothing is pending. -/
def Obligations.StepFaultsExactlyWhenIdle : Prop :=
  ∀ (s : State) (f : Fault), step s = .fault f ↔ s.inputs = []

/-- R135 (with R11, and R12 as the premise on the noise): every pending input is performed and taken;
nothing waits, also when no noise pair is supplied. -/
def Obligations.EveryPendingInputCompletes : Prop :=
  ∀ s : State, s.NoiseAdmissible → s.inputs ≠ [] → ∃ t, step s = .next t ∧ t.inputs = s.inputs.tail

/-- R12: the supplied noise stays in its range. -/
def Obligations.NoiseStaysAdmissible : Prop :=
  ∀ s t : State, s.NoiseAdmissible → step s = .next t → t.NoiseAdmissible

/-- R25, R26, R27, R110: every step keeps ECAUSE and the sticky bits consistent. -/
def Obligations.ErrorReportStaysConsistent : Prop :=
  ∀ s t : State, s.ErrorConsistent → step s = .next t → t.ErrorConsistent

/-- R115, R116: only ECLR and reset clear ILL, BERR or ECAUSE, and a later error leaves ECAUSE alone. -/
def Obligations.OnlyEclrAndResetClearErrors : Prop :=
  ∀ s t : State, step s = .next t → ¬ Resets s → ¬ Performs s .eclr →
    (s.ill = true → t.ill = true) ∧ (s.berr = true → t.berr = true) ∧
    (s.ecause ≠ 0 → t.ecause ≠ 0) ∧ (¬ s.errorFree → t.ecause = s.ecause)

/-- R113: an error is not a trap: whatever ILL, BERR and ECAUSE hold, the next transaction does to every
other piece of state what it would have done. Both executions draw the same noise pair (R133); where none is
supplied, that rests on the model's choice that a free pair is named by the count of draws (log 4). -/
def Obligations.ErrorsDoNotStopLaterCommands : Prop :=
  ∀ (i : Instr) (s t : State) (a b : Bool) (c : BitVec 4), exec i s = .next t →
    ∃ u, exec i { s with ill := a, berr := b, ecause := c } = .next u ∧
      u.h = t.h ∧ u.idx = t.idx ∧ u.out = t.out ∧ u.xhi = t.xhi ∧ u.xlo = t.xlo ∧ u.fres = t.fres ∧
      u.inputs = t.inputs ∧ u.noise = t.noise ∧ u.drawn = t.drawn ∧
      (i ≠ .rd .status → u.returned = t.returned)

/-! ### Frames and writers -/

/-- R21, R89, R92, R94, R96 and the other command rules: every slot an instruction does not name reads
as before, and so does every bit of STATUS; the pending inputs, the noise and the words returned move
only as the rule says. -/
def Obligations.InstructionsChangeOnlyTheirSlots : Prop :=
  ∀ (i : Instr) (s t : State), exec i s = .next t →
    (∀ slot, ¬ touches i s slot → busRead slot t = busRead slot s) ∧
    (∀ b, ¬ touchesStatusBit i b → (busRead .status t).getLsbD b = (busRead .status s).getLsbD b) ∧
    t.inputs = s.inputs ∧
    ((∀ slot, i ≠ .rd slot) → t.returned = s.returned) ∧
    ((∀ imm, i ≠ .q16d imm) → t.noise = s.noise ∧ t.drawn = s.drawn)

/-- R23: only BYP8, Q16, Q16D and reset write OUT; DRST in particular does not. -/
def Obligations.OnlySampleCommandsWriteOut : Prop :=
  ∀ s t : State, step s = .next t → t.out ≠ s.out →
    Resets s ∨ (∃ b, Performs s (.byp8 b)) ∨ (∃ imm, Performs s (.q16 imm)) ∨ ∃ imm, Performs s (.q16d imm)

/-- R24: Q16D moves IDX on by one, 7 to 0; DRST and reset set it to 0; nothing else moves it. -/
def Obligations.OnlyQ16DAndFreshStartMoveIndex : Prop :=
  ∀ s t : State, step s = .next t →
    ((∃ imm, Performs s (.q16d imm)) → t.idx.toNat = (s.idx.toNat + 1) % 8) ∧
    (Performs s .drst ∨ Resets s → t.idx = 0) ∧
    (¬ (∃ imm, Performs s (.q16d imm)) → ¬ Performs s .drst → ¬ Resets s → t.idx = s.idx)

/-- R31: Q16D writes one entry of the history, the one after IDX; DRST and reset write +0.0 to all;
nothing else touches it. -/
def Obligations.OnlyQ16DAndFreshStartWriteHistory : Prop :=
  ∀ s t : State, step s = .next t →
    ((∃ imm, Performs s (.q16d imm)) → ∀ i, i ≠ s.idx + 1 → t.hist i = s.hist i) ∧
    (Performs s .drst ∨ Resets s → ∀ i, t.hist i = 0) ∧
    (¬ (∃ imm, Performs s (.q16d imm)) → ¬ Performs s .drst → ¬ Resets s → t.h = s.h)

/-- R28, R29: XHI and XLO are written only by their bus writes and by reset. -/
def Obligations.OnlyBusWritesChangeMantissaWords : Prop :=
  ∀ s t : State, step s = .next t →
    (t.xhi ≠ s.xhi → Resets s ∨ ∃ d, Performs s (.wrXhi d) ∧ t.xhi = d) ∧
    (t.xlo ≠ s.xlo → Resets s ∨ ∃ d, Performs s (.wrXlo d) ∧ t.xlo = d)

/-- R30: only XCVT and reset write FRES. -/
def Obligations.OnlyXcvtWritesFres : Prop :=
  ∀ s t : State, step s = .next t → t.fres ≠ s.fres → Resets s ∨ ∃ imm, Performs s (.xcvt imm)

/-- R12: Q16D consumes exactly one noise pair, and no other step consumes one. -/
def Obligations.OnlyQ16DConsumesNoise : Prop :=
  ∀ s t : State, step s = .next t →
    ((∃ imm, Performs s (.q16d imm)) → t.noise = s.noise.tail ∧ t.drawn = s.drawn + 1) ∧
    (¬ (∃ imm, Performs s (.q16d imm)) → t.noise = s.noise ∧ t.drawn = s.drawn)

/-! ### Control commands and samples -/

/-- R70: NOP completes and changes nothing; its encoding and its errors. -/
def Obligations.NopChangesNothing : Prop :=
  CommandRule 0x00 (fun imm => imm == 0) (fun _ => .nop) ∧ ∀ s : State, exec .nop s = .next s

/-- R72: DRST completes: the history +0.0, IDX 0, nothing else; its encoding and its errors. -/
def Obligations.DrstFreshensTheDitherState : Prop :=
  CommandRule 0x01 (fun imm => imm == 0) (fun _ => .drst) ∧
  ∀ s : State, exec .drst s = .next { s with h := #v[0, 0, 0, 0, 0, 0, 0, 0], idx := 0 }

/-- R74: ECLR completes: ILL, BERR and ECAUSE 0, nothing else; its encoding and its errors. -/
def Obligations.EclrClearsTheErrorReport : Prop :=
  CommandRule 0x02 (fun imm => imm == 0) (fun _ => .eclr) ∧
  ∀ s : State, exec .eclr s = .next { s with ill := false, berr := false, ecause := 0 }

/-- R92: BYP8 completes: every byte is copied to OUT unchanged, nothing else; its encoding and its errors. -/
def Obligations.Byp8CopiesTheByte : Prop :=
  CommandRule 0x10 (fun imm => decide (imm.toNat < 256)) (fun imm => .byp8 (BitVec.ofNat 8 imm.toNat)) ∧
  ∀ (b : Byte) (s : State), exec (.byp8 b) s = .next { s with out := b }

/-- R94, R95: Q16 completes, its output is the clamped `round(v)` and is `min(255, (s + 32896) >> 8)`, and
`v + 0.5` is exact; its encoding and its errors. -/
def Obligations.Q16FollowsTheIntegerLaw : Prop :=
  CommandRule 0x11 (fun _ => true) (fun imm => .q16 imm) ∧
  ∀ (imm : BitVec 16) (s : State),
    exec (.q16 imm) s =
      .next { s with out := clampbyte (floor64 (f64Add (preRounding imm) 0x3FE0000000000000)) } ∧
    f64Val (f64Add (preRounding imm) 0x3FE0000000000000) = ((imm.toInt : ℚ) + 32896) / 256 ∧
    exec (.q16 imm) s =
      .next { s with out := BitVec.ofNat 8 (min 255 ((imm.toInt + 32896).toNat / 2 ^ 8)) }

/-- R96: Q16D completes with one pair of the range, the first supplied one if there is one; the history
is read before IDX moves, the error of the unclamped result is written at the new IDX; its encoding and its
errors. -/
def Obligations.Q16DWritesOutIndexAndError : Prop :=
  CommandRule 0x12 (fun _ => true) (fun imm => .q16d imm) ∧
  ∀ (imm : BitVec 16) (s : State), (∀ p, s.noise.head? = some p → p.inRange = true) →
    ∃ p : NoisePair, p.inRange = true ∧ (s.noise = [] ∨ s.noise.head? = some p) ∧
      let xe := tapSum (preRounding imm) (s.hist s.idx) (s.hist (s.idx - 1)) (s.hist (s.idx - 2))
        (s.hist (s.idx - 3)) (s.hist (s.idx - 4))
      let r := roundedWith xe p
      exec (.q16d imm) s = .next { s with
        idx := s.idx + 1
        h := s.h.set (s.idx + 1).toNat (f64Sub xe r) (s.idx + 1).isLt
        out := clampbyte r
        noise := s.noise.tail
        drawn := s.drawn + 1 }

/-- The model's refusals (log 5, from D9 and I3; log 13): Q16D is turned away exactly when the supplied pair
leaves the range, a term that no pattern stands for always, and nothing else stops an instruction. -/
def Obligations.OnlyBadNoiseAndIllFormedTermsAreRefused : Prop :=
  ∀ (i : Instr) (s : State),
    (exec i s = .refused .noiseOutOfRange ↔
      ∃ imm p rest, i = .q16d imm ∧ s.noise = p :: rest ∧ p.inRange = false) ∧
    (exec i s = .refused .illFormed ↔ i.wellFormed = false) ∧
    (∀ r, exec i s = .refused r → r = .noiseOutOfRange ∨ r = .illFormed) ∧
    ∀ f, exec i s ≠ .fault f

/-- R90: the pre-rounding value is `(s + 32768) / 256` exactly, both operations being exact, and lies in
[0.0, 255.99609375]. -/
def Obligations.SampleValueIsExact : Prop :=
  ∀ imm : BitVec 16,
    sampleValue imm = preRounding imm ∧
    f64Finite (sampleValue imm) = true ∧
    f64Val (f64Div (i2f imm.toInt) 0x4070000000000000) = (imm.toInt : ℚ) / 256 ∧
    f64Val (sampleValue imm) = ((imm.toInt : ℚ) + 32768) / 256 ∧
    0 ≤ f64Val (sampleValue imm) ∧ f64Val (sampleValue imm) ≤ 65535 / 256 ∧
    sampleValue 0x8000 = 0

/-- R100: the error written by one Q16D stands at tap 0 of the next, and every older error moves on by
one tap. -/
def Obligations.HistoryIsAShiftRegister : Prop :=
  ∀ (imm : BitVec 16) (s t : State) (p : NoisePair) (s1 : State),
    drawNoise s = some (p, s1) → exec (.q16d imm) s = .next t →
      t.hist t.idx = f64Sub (ditherInput imm s) (ditherResult (ditherInput imm s) p) ∧
      ∀ k : BitVec 3, k ≠ 0 → t.hist (t.idx - k) = s.hist (s.idx - (k - 1))

/-- R104: from a fresh dither state, Q16D over any list of samples is the 5-tap error-feedback filter of
the recurrence: the same output bytes, and the last eight errors at the eight taps. -/
def Obligations.Q16DIsTheFiveTapFilter : Prop :=
  ∀ (samples : List (BitVec 16 × NoisePair)) (s : State) (later : List NoisePair),
    (∀ x ∈ samples, x.2.inRange = true) → s.noise = samples.map Prod.snd ++ later →
    (∀ i, s.hist i = 0) →
    ∃ t : State, ditherRun (samples.map Prod.fst) s = some (t, (filterRun [] samples).2) ∧
      (∀ k : BitVec 3, t.hist (t.idx - k) = (filterRun [] samples).1.getD k.toNat 0) ∧
      t.noise = later

/-- R103: on a fresh history `xe` is `v`, whatever the noise; with `n = 0` (a zero of either sign) the output is
that of Q16 and the error `v - r` lies in [-0.5, 0.5). -/
def Obligations.FirstDitheredSampleIsNominal : Prop :=
  ∀ (imm : BitVec 16) (s : State), (∀ i, s.hist i = 0) →
    ditherInput imm s = sampleValue imm ∧
    ∀ (p : NoisePair) (rest : List NoisePair), s.noise = p :: rest → p.inRange = true →
      f64Add p.u1 p.u2 = 0 ∨ f64Add p.u1 p.u2 = 0x8000000000000000 →
      ∃ t u, exec (.q16d imm) s = .next t ∧ exec (.q16 imm) s = .next u ∧ t.out = u.out ∧
        f64Finite (t.hist t.idx) = true ∧
        f64Val (t.hist t.idx) = f64Val (sampleValue imm) - f64Val (roundHalfUp (sampleValue imm)) ∧
        -(1 / 2) ≤ f64Val (t.hist t.idx) ∧ f64Val (t.hist t.idx) < 1 / 2

/-- R93, R106: Q16, BYP8 and XCVT before a Q16D do not change what it writes. Both executions draw the same
noise pair (R133); where none is supplied, that rests on the model's choice that a free pair is named by the
count of draws (log 4). -/
def Obligations.OtherSampleCommandsDoNotDisturbTheFilter : Prop :=
  ∀ (i : Instr) (imm : BitVec 16) (s t u : State),
    ((∃ b, i = .byp8 b) ∨ (∃ a, i = .q16 a) ∨ ∃ e, i = .xcvt e) →
    exec i s = .next t → exec (.q16d imm) t = .next u →
    ∃ w, exec (.q16d imm) s = .next w ∧ w.h = u.h ∧ w.idx = u.idx ∧ w.out = u.out ∧
      w.noise = u.noise ∧ w.drawn = u.drawn

/-- R32: every step keeps the history bounded. -/
def Obligations.HistoryStaysBounded : Prop :=
  ∀ s t : State, s.HistoryBounded → step s = .next t → t.HistoryBounded

/-- R12, R27, R32, R36: the invariants hold after reset; that no noise is supplied then is the model's own
(log 16). -/
def Obligations.InvariantsHoldAtReset : Prop :=
  State.reset.HistoryBounded ∧ State.reset.ErrorConsistent ∧ State.reset.NoiseAdmissible

/-- R105: on a bounded history `xe` is finite and lies in (-16.73, 272.73), and so are the rounded
result and the error: no intermediate of Q16D is NaN or infinite. -/
def Obligations.DitherPathStaysFinite : Prop :=
  ∀ (imm : BitVec 16) (s : State) (p : NoisePair), s.HistoryBounded → p.inRange = true →
    let xe := ditherInput imm s
    let r := ditherResult xe p
    f64Finite xe = true ∧ -(1673 / 100) < f64Val xe ∧ f64Val xe < 27273 / 100 ∧
    f64Finite (f64Add xe (f64Add p.u1 p.u2)) = true ∧ f64Finite r = true ∧ f64Finite (f64Sub xe r) = true

/-! ### Arithmetic -/

/-- R7: `f64_add` and `f64_sub` are the exact result rounded to nearest, ties to even; an exact zero sum
of operands of opposite sign, and `x - x`, are +0.0. -/
def Obligations.AddAndSubRoundToNearestEven : Prop :=
  ∀ a b : F64, f64Finite a = true → f64Finite b = true →
    IsRounded (f64Val a + f64Val b) (f64Add a b) ∧
    IsRounded (f64Val a - f64Val b) (f64Sub a b) ∧
    (f64Val a + f64Val b = 0 → f64Sign a ≠ f64Sign b → f64Add a b = 0) ∧
    f64Sub a a = 0

/-- R7: `f64_mul` is the exact product rounded to nearest, ties to even. -/
def Obligations.MulRoundsToNearestEven : Prop :=
  ∀ a b : F64, f64Finite a = true → f64Finite b = true →
    IsRounded (f64Val a * f64Val b) (f64Mul a b)

/-- R7: `f64_div` is the exact quotient rounded to nearest, ties to even. -/
def Obligations.DivRoundsToNearestEven : Prop :=
  ∀ a b : F64, f64Finite a = true → f64Finite b = true → f64Val b ≠ 0 →
    IsRounded (f64Val a / f64Val b) (f64Div a b)

/-- R7: `scale64` rounds `m × 2^e` to nearest, ties to even; `i2f` is exact below 2^53. -/
def Obligations.ScaleRoundsAndIntegersAreExact : Prop :=
  (∀ (m : Nat) (e : Int), m < 2 ^ 32 → IsRounded (m * 2 ^ e) (scale64 m e)) ∧
  (∀ n : Int, n.natAbs < 2 ^ 53 → f64Finite (i2f n) = true ∧ f64Val (i2f n) = n)

/-- R7: `floor64` of a finite value is the largest integral value not above it, exactly; of -0.0 it is
-0.0, and an infinity is its own floor. -/
def Obligations.FloorIsExact : Prop :=
  (∀ x : F64, f64Finite x = true → f64Finite (floor64 x) = true ∧ f64Val (floor64 x) = ⌊f64Val x⌋) ∧
  floor64 0x8000000000000000 = 0x8000000000000000 ∧
  floor64 0x7FF0000000000000 = 0x7FF0000000000000 ∧
  floor64 0xFFF0000000000000 = 0xFFF0000000000000

/-- R7: `clampbyte` saturates an integral value to [0, 255], and gives 0 for NaN. -/
def Obligations.ClampbyteSaturates : Prop :=
  (∀ (r : F64) (n : Int), f64Finite r = true → f64Val r = n →
    clampbyte r = BitVec.ofNat 8 (min 255 n.toNat)) ∧
  (∀ r : F64, f64Exp r = 0x7FF → f64Frac r ≠ 0 → clampbyte r = 0) ∧
  clampbyte 0x7FF0000000000000 = 255 ∧ clampbyte 0xFFF0000000000000 = 0

/-- R9: `round` rounds the addition first, so that the value 0.5 - 2^-54 rounds to 1.0. -/
def Obligations.RoundAddsBeforeTheFloor : Prop :=
  (∀ x : F64, roundHalfUp x = floor64 (f64Add x 0x3FE0000000000000)) ∧
  roundHalfUp 0x3FDFFFFFFFFFFFFF = 0x3FF0000000000000

/-- R8: the five weights are the binary64 values nearest to the decimal literals, ties to even. -/
def Obligations.WeightsAreTheNearestValues : Prop :=
  taps = [(0, 0x40004395810624DD), (1, 0xC00151EB851EB852), (2, 0x3FFF5810624DD2F2),
    (3, 0xBFF970A3D70A3D71), (4, 0x3FE3AD42C3C9EECC)] ∧
  IsRounded (2033 / 1000) 0x40004395810624DD ∧ IsRounded (-2165 / 1000) 0xC00151EB851EB852 ∧
  IsRounded (1959 / 1000) 0x3FFF5810624DD2F2 ∧ IsRounded (-1590 / 1000) 0xBFF970A3D70A3D71 ∧
  IsRounded (6149 / 10000) 0x3FE3AD42C3C9EECC

/-! ### XCVT -/

/-- R81: XCVT completes for every exponent field and every mantissa; FRES takes the result and nothing
else changes; its encoding and its errors. -/
def Obligations.XcvtWritesTheConversion : Prop :=
  CommandRule 0x20 (fun _ => true) (fun imm => .xcvt imm) ∧
  ∀ (imm : BitVec 16) (s : State),
    let e := imm.toInt - 16383 - 31
    let f := if imm.toInt = 0 ∧ s.xhi.toNat = 0 ∧ s.xlo.toNat = 0 then 0
      else if imm.toInt = 32767 then extSat
      else f64Add (scale64 s.xhi.toNat e) (scale64 s.xlo.toNat (e - 32))
    exec (.xcvt imm) s = .next { s with fres := f }

/-- R82: with a zero exponent field the result is +0.0, with a zero mantissa and with any other. -/
def Obligations.XcvtOfZeroExponentIsZero : Prop :=
  ∀ s : State, exec (.xcvt 0) s = .next { s with fres := 0 }

/-- R83: with exponent field 0x7FFF the result is EXT_SAT, one of its two admissible values, whatever the
mantissa. -/
def Obligations.XcvtSaturates : Prop :=
  (extSat = 0x7FEFFFFFFFFFFFFF ∨ extSat = 0x7FF0000000000000) ∧
  ∀ s : State, exec (.xcvt 0x7FFF) s = .next { s with fres := extSat }

/-- R86: with a negative exponent field the result is +0.0. -/
def Obligations.XcvtOfNegativeExponentIsZero : Prop :=
  ∀ (imm : BitVec 16) (s : State), imm.getLsbD 15 = true →
    exec (.xcvt imm) s = .next { s with fres := 0 }

/-- R87: `a` and the result are +infinity when `hi × 2^e` is 2^1024 or more, in particular for the stated range
of exponents, and the result is +infinity when the sum of finite `a` and `b` rounds to 2^1024 or more. -/
def Obligations.XcvtOverflowsToInfinity : Prop :=
  (∀ (imm : BitVec 16) (xhi xlo : Word), imm.toInt ≠ 32767 →
    ((17407 ≤ imm.toInt ∧ 2 ^ 31 ≤ xhi.toNat) ∨ (2 : ℚ) ^ 1024 ≤ xhi.toNat * 2 ^ (imm.toInt - 16414) →
      scaledHi imm xhi = 0x7FF0000000000000 ∧ convertExt imm xhi xlo = 0x7FF0000000000000) ∧
    (f64Finite (scaledHi imm xhi) = true → f64Finite (scaledLo imm xlo) = true →
      overflowBound ≤ f64Val (scaledHi imm xhi) + f64Val (scaledLo imm xlo) →
      convertExt imm xhi xlo = 0x7FF0000000000000)) ∧
  convertExt 0x43FE 0xFFFFFFFF 0xFFFFFFFF = 0x7FF0000000000000 ∧
  convertExt 0x43FE 0xFFFFFFFF 0xFFFFF800 = 0x7FEFFFFFFFFFFFFF

/-- R88: the result is never negative, never -0.0 and never NaN. -/
def Obligations.XcvtResultIsNeverNegativeOrNaN : Prop :=
  ∀ (imm : BitVec 16) (xhi xlo : Word),
    f64Sign (convertExt imm xhi xlo) = false ∧ f64Mag (convertExt imm xhi xlo) ≤ 0x7FF0000000000000

/-- R85: outside the subnormal range the three roundings give the correctly rounded `M × 2^(e16 - 16446)`;
inside it they need not, as the rule's example shows. -/
def Obligations.XcvtIsCorrectlyRounded : Prop :=
  (∀ (imm : BitVec 16) (xhi xlo : Word), imm.toInt ≠ 32767 →
    (2 : ℚ) ^ (-1022 : ℤ) ≤ ((xhi.toNat * 2 ^ 32 + xlo.toNat : ℕ) : ℚ) * 2 ^ (imm.toInt - 16446) →
    (f64Mag (scaledHi imm xhi) = 0 ∨ 2 ^ 52 ≤ f64Mag (scaledHi imm xhi)) →
    (f64Mag (scaledLo imm xlo) = 0 ∨ 2 ^ 52 ≤ f64Mag (scaledLo imm xlo)) →
    IsRounded (((xhi.toNat * 2 ^ 32 + xlo.toNat : ℕ) : ℚ) * 2 ^ (imm.toInt - 16446)) (convertExt imm xhi xlo)) ∧
  convertExt 0x3BEB 0x80000001 0xFFFFFFFF = 0x0000000040000000 ∧
  scale64 (0x80000001 * 2 ^ 32 + 0xFFFFFFFF) (-1107) = 0x0000000040000001

/-! ### What a host writes -/

/-- R64: a line with an immediate in its range assembles to the instruction it names, and one outside it
does not assemble. The line is given as its parts. A write of CMD is decoded as the command word it carries; a
write of a read-only or reserved slot is the one that raises BERR. The range of `imm32` is the model's choice
(log 18), and so is that any number of either range of `imm16` assembles (log 19). -/
def Obligations.AssembledLinesDecode : Prop :=
  (∀ slot, ∃ t, assemble (.rd slot) = some t ∧ decode t = .ok (.rd slot)) ∧
  (∀ v : Int, (0 ≤ v ∧ v ≤ 0xFFFFFFFF →
      (∃ t, assemble (.wr .xhi v) = some t ∧ decode t = .ok (.wrXhi (BitVec.ofInt 32 v))) ∧
      (∃ t, assemble (.wr .xlo v) = some t ∧ decode t = .ok (.wrXlo (BitVec.ofInt 32 v))) ∧
      (assemble (.wr .cmd v) = some (tWrite 0 (BitVec.ofInt 32 v)) ∧
        decode (tWrite 0 (BitVec.ofInt 32 v)) = decodeCommand (BitVec.ofInt 32 v)) ∧
      ∀ slot : Slot, slot.access.writeError.isSome = true →
        ∃ t, assemble (.wr slot v) = some t ∧ decode t = .ok (.wrBad slot (BitVec.ofInt 32 v))) ∧
    (v < 0 ∨ 0xFFFFFFFF < v → ∀ slot, assemble (.wr slot v) = none)) ∧
  (∃ t, assemble .nop = some t ∧ decode t = .ok .nop) ∧
  (∃ t, assemble .drst = some t ∧ decode t = .ok .drst) ∧
  (∃ t, assemble .eclr = some t ∧ decode t = .ok .eclr) ∧
  (∀ v : Int, (0 ≤ v ∧ v ≤ 255 → ∃ t, assemble (.byp8 v) = some t ∧ decode t = .ok (.byp8 (BitVec.ofInt 8 v))) ∧
    (v < 0 ∨ 255 < v → assemble (.byp8 v) = none)) ∧
  (∀ v : Int, (-32768 ≤ v ∧ v ≤ 32767 →
      (∃ t, assemble (.q16 v) = some t ∧ decode t = .ok (.q16 (BitVec.ofInt 16 v))) ∧
      ∃ t, assemble (.q16d v) = some t ∧ decode t = .ok (.q16d (BitVec.ofInt 16 v))) ∧
    (v < -32768 ∨ 32767 < v → assemble (.q16 v) = none ∧ assemble (.q16d v) = none)) ∧
  (∀ v : Int, (-32768 ≤ v ∧ v ≤ 0xFFFF →
      ∃ t, assemble (.xcvt v) = some t ∧ decode t = .ok (.xcvt (BitVec.ofInt 16 v))) ∧
    (v < -32768 ∨ 0xFFFF < v → assemble (.xcvt v) = none))

/-- R46, R65: the three transactions of XLD80 load the ten file bytes big-endian and convert them. -/
def Obligations.LoadingTenBytesConvertsThem : Prop :=
  ∀ (e : Vector Byte 10) (s : State) (rest : List HostInput),
    ∃ t1 t2 t3, (Pseudo.xld80 e).expand.map assemble = [some t1, some t2, some t3] ∧
      (s.inputs = [.bus t1, .bus t2, .bus t3] ++ rest →
        ∃ u v w, step s = .next u ∧ step u = .next v ∧ step v = .next w ∧
          w.xhi.toNat = e[2].toNat * 2 ^ 24 + e[3].toNat * 2 ^ 16 + e[4].toNat * 2 ^ 8 + e[5].toNat ∧
          w.xlo.toNat = e[6].toNat * 2 ^ 24 + e[7].toNat * 2 ^ 16 + e[8].toNat * 2 ^ 8 + e[9].toNat ∧
          w.fres = convertExt (BitVec.ofNat 16 (e[0].toNat * 2 ^ 8 + e[1].toNat)) w.xhi w.xlo ∧
          w.h = s.h ∧ w.idx = s.idx ∧ w.out = s.out ∧ w.ill = s.ill ∧ w.berr = s.berr ∧
          w.ecause = s.ecause ∧ w.inputs = rest)
end

