-- ==== Sys2Proof/Laws/Decode.lean ====
section
/-! SUPPORT. The fields of a built pattern, the slots and their addresses. -/

namespace Sys2Proof

section Fields

/-- The bits of a write pattern (30_encoding.md R55). -/
theorem tWrite_getLsbD (a : BitVec 6) (d : Word) (i : Nat) :
    (tWrite a d).getLsbD i =
      if i < 32 then d.getLsbD i else if i < 38 then a.getLsbD (i - 32) else (1#1).getLsbD (i - 38) := by
  refine (BitVec.getLsbD_append (x := 1#1) (y := a ++ d) (i := i)).trans ?_
  rw [BitVec.getLsbD_append]
  by_cases h1 : i < 32
  · have : i < 38 := by omega
    simp [*]
  · simp [*]

/-- The bits of a read pattern (30_encoding.md R55). -/
theorem tRead_getLsbD (a : BitVec 6) (i : Nat) :
    (tRead a).getLsbD i = if 32 ≤ i ∧ i < 38 then a.getLsbD (i - 32) else false := by
  refine (BitVec.getLsbD_append (x := 0#1) (y := a ++ 0#32) (i := i)).trans ?_
  rw [BitVec.getLsbD_append]
  by_cases h1 : i < 32
  · have : ¬ 32 ≤ i := by omega
    simp [*]
  · have : 32 ≤ i := by omega
    simp [*]

/-- The bits of a command word (30_encoding.md R57). -/
theorem cWord_getLsbD (op : BitVec 8) (imm : BitVec 16) (i : Nat) :
    (cWord op imm).getLsbD i =
      if i < 16 then imm.getLsbD i else if i < 24 then false else op.getLsbD (i - 24) := by
  refine (BitVec.getLsbD_append (x := op) (y := 0#8 ++ imm) (i := i)).trans ?_
  rw [BitVec.getLsbD_append]
  by_cases h1 : i < 16
  · have : i < 24 := by omega
    simp [*]
  · simp [*]

@[simp] theorem fieldW_tRead (a : BitVec 6) : fieldW (tRead a) = false := by
  simp [fieldW, tRead_getLsbD, -BitVec.getLsbD_eq_getElem]

@[simp] theorem fieldW_tWrite (a : BitVec 6) (d : Word) : fieldW (tWrite a d) = true := by
  simp [fieldW, tWrite_getLsbD, -BitVec.getLsbD_eq_getElem]

@[simp] theorem fieldA_tRead (a : BitVec 6) : fieldA (tRead a) = a := by
  ext i hi
  simp [fieldA, tRead_getLsbD, hi, show 32 + i < 38 by omega]

@[simp] theorem fieldA_tWrite (a : BitVec 6) (d : Word) : fieldA (tWrite a d) = a := by
  ext i hi
  simp [fieldA, tWrite_getLsbD, hi, show 32 + i < 38 by omega]

@[simp] theorem fieldD_tWrite (a : BitVec 6) (d : Word) : fieldD (tWrite a d) = d := by
  ext i hi
  simp [fieldD, tWrite_getLsbD, hi]

@[simp] theorem fieldOp_cWord (op : BitVec 8) (imm : BitVec 16) : fieldOp (cWord op imm) = op := by
  ext i hi
  simp [fieldOp, cWord_getLsbD, show ¬ 24 + i < 16 by omega, hi]

@[simp] theorem fieldRsv_cWord (op : BitVec 8) (imm : BitVec 16) : fieldRsv (cWord op imm) = 0 := by
  ext i hi
  simp [fieldRsv, cWord_getLsbD, show 16 + i < 24 by omega]

@[simp] theorem fieldImm_cWord (op : BitVec 8) (imm : BitVec 16) : fieldImm (cWord op imm) = imm := by
  ext i hi
  simp [fieldImm, cWord_getLsbD, hi]

/-- A write pattern is its address and its data. -/
theorem tWrite_fields (t : TPattern) (h : fieldW t = true) : tWrite (fieldA t) (fieldD t) = t := by
  apply BitVec.eq_of_getLsbD_eq
  intro i hi
  simp only [tWrite_getLsbD, fieldA, fieldD, fieldW, BitVec.getLsbD_extractLsb'] at *
  by_cases h1 : i < 32
  · simp [h1]
  · by_cases h2 : i < 38
    · simp [h1, h2, show i - 32 < 6 by omega, show 32 + (i - 32) = i by omega]
    · have : i = 38 := by omega
      subst this
      simp [h]

/-- A command word is its three fields. -/
theorem cWord_fields (d : Word) (h : fieldRsv d = 0) : cWord (fieldOp d) (fieldImm d) = d := by
  apply BitVec.eq_of_getLsbD_eq
  intro i hi
  have hr : ∀ k, k < 8 → d.getLsbD (16 + k) = false := by
    intro k hk
    have := congrArg (fun v => v.getLsbD k) h
    simpa [fieldRsv, hk] using this
  simp only [cWord_getLsbD, fieldOp, fieldImm, BitVec.getLsbD_extractLsb']
  by_cases h1 : i < 16
  · simp [h1]
  · by_cases h2 : i < 24
    · have := hr (i - 16) (by omega)
      rw [show 16 + (i - 16) = i by omega] at this
      simp [h1, h2, this]
    · simp [h1, h2, show i - 24 < 8 by omega, show 24 + (i - 24) = i by omega]

end Fields

section Slots

@[simp] theorem Slot.ofAddr_addr (s : Slot) : Slot.ofAddr s.addr = s := by
  cases s with
  | reservedLow i => revert i; decide
  | reservedHigh i => revert i; decide
  | hl i => revert i; decide
  | hh i => revert i; decide
  | _ => decide

@[simp] theorem Slot.addr_ofAddr (a : BitVec 6) : (Slot.ofAddr a).addr = a := by
  revert a; decide

/-- A slot refuses writes unless it is CMD, XHI or XLO (10_state.md R21). -/
theorem Slot.writeError_isSome (s : Slot) :
    s.access.writeError.isSome = true ↔ s ≠ .cmd ∧ s ≠ .xhi ∧ s ≠ .xlo := by
  cases s <;> simp [Slot.access, Access.writeError]

end Slots

section Decoding

/-- A read decodes to the read of its slot, whatever its data field holds (30_encoding.md R55). -/
theorem decode_read {t : TPattern} (h : fieldW t = false) : decode t = .ok (.rd (Slot.ofAddr (fieldA t))) := by
  simp [decode, h]

@[simp] theorem decode_tRead (slot : Slot) : decode (tRead slot.addr) = .ok (.rd slot) := by
  simp [decode]

@[simp] theorem decode_tWrite (a : BitVec 6) (d : Word) :
    decode (tWrite a d) = decodeWrite (Slot.ofAddr a) d := by
  simp [decode]

/-- All a write of a slot other than CMD, XHI and XLO can decode to. -/
theorem decodeWrite_bad {slot : Slot} (h : slot.access.writeError.isSome = true) (d : Word) :
    decodeWrite slot d = .ok (.wrBad slot d) := by
  cases slot <;> simp_all [decodeWrite, Slot.access, Access.writeError]

/-- The seven operation codes of the opcode map (30_encoding.md R59), the constructor they stand for
and the operand's constraint (R60). -/
theorem commandOf_cases (op : BitVec 8) (imm : BitVec 16) :
    (op = 0x00 ∧ commandOf op imm = some (if imm = 0 then some .nop else none)) ∨
    (op = 0x01 ∧ commandOf op imm = some (if imm = 0 then some .drst else none)) ∨
    (op = 0x02 ∧ commandOf op imm = some (if imm = 0 then some .eclr else none)) ∨
    (op = 0x10 ∧ commandOf op imm =
      some (if imm.extractLsb' 8 8 = 0 then some (.byp8 (imm.extractLsb' 0 8)) else none)) ∨
    (op = 0x11 ∧ commandOf op imm = some (some (.q16 imm))) ∨
    (op = 0x12 ∧ commandOf op imm = some (some (.q16d imm))) ∨
    (op = 0x20 ∧ commandOf op imm = some (some (.xcvt imm))) ∨
    (op ∉ [0x00, 0x01, 0x02, 0x10, 0x11, 0x12, 0x20] ∧ commandOf op imm = none) := by
  by_cases h : op ∈ [0x00#8, 0x01#8, 0x02#8, 0x10#8, 0x11#8, 0x12#8, 0x20#8]
  · simp only [List.mem_cons, List.not_mem_nil, or_false] at h
    obtain rfl | rfl | rfl | rfl | rfl | rfl | rfl := h <;> simp [commandOf]
  · refine .inr (.inr (.inr (.inr (.inr (.inr (.inr ⟨h, ?_⟩))))))
    unfold commandOf
    simp only [List.mem_cons, List.not_mem_nil, or_false, not_or, ← BitVec.toNat_inj] at h
    split <;> simp_all

end Decoding

end Sys2Proof
end

