-- ==== Sys2Proof/Laws/Float.lean ====
section
/-! SUPPORT. The one fact all of R7's arithmetic rests on: `roundF64` is round-to-nearest ties-to-even
(`roundF64_isRounded`), from the magnitude bits of a pattern and the units of its last place. -/

namespace Sys2Proof.Machine

section Patterns

theorem f64Mag_eq (b : F64) : f64Mag b = f64Exp b * 2 ^ 52 + f64Frac b := by
  simp only [f64Mag, f64Exp, f64Frac, BitVec.extractLsb'_toNat, Nat.shiftRight_eq_div_pow]
  omega

theorem f64Frac_lt (b : F64) : f64Frac b < 2 ^ 52 := (b.extractLsb' 0 52).isLt

theorem f64Exp_lt (b : F64) : f64Exp b < 2 ^ 11 := (b.extractLsb' 52 11).isLt

theorem f64Exp_eq (b : F64) : f64Exp b = f64Mag b / 2 ^ 52 := by
  have := f64Mag_eq b
  have := f64Frac_lt b
  omega

theorem f64Frac_eq (b : F64) : f64Frac b = f64Mag b % 2 ^ 52 := by
  have := f64Mag_eq b
  have := f64Frac_lt b
  omega

theorem f64Mag_lt (b : F64) : f64Mag b < 2 ^ 63 := (b.extractLsb' 0 63).isLt

/-- A pattern is finite when its magnitude bits are below those of infinity. -/
theorem f64Finite_iff (b : F64) : f64Finite b = true ↔ f64Mag b < infMag := by
  have := f64Mag_eq b
  have := f64Frac_lt b
  have := f64Exp_lt b
  simp only [f64Finite, decide_eq_true_eq, infMag]
  omega

theorem packF64_toNat (neg : Bool) {g : Nat} (h : g < 2 ^ 63) :
    (packF64 neg g).toNat = (if neg then 2 ^ 63 else 0) + g := by
  cases neg <;> simp [packF64] <;> omega

@[simp] theorem f64Mag_pack (neg : Bool) {g : Nat} (h : g < 2 ^ 63) : f64Mag (packF64 neg g) = g := by
  simp only [f64Mag, BitVec.extractLsb'_toNat, packF64_toNat neg h, Nat.shiftRight_zero]
  cases neg <;> simp <;> omega

@[simp] theorem f64Sign_pack (neg : Bool) {g : Nat} (h : g < 2 ^ 63) : f64Sign (packF64 neg g) = neg := by
  have : (packF64 neg g).getLsbD 63 = decide ((packF64 neg g).toNat / 2 ^ 63 % 2 = 1) := by
    simp only [BitVec.getLsbD, Nat.testBit, Nat.shiftRight_eq_div_pow]
    simp
    have := (packF64 neg g).isLt
    rcases Nat.mod_two_eq_zero_or_one ((packF64 neg g).toNat / 9223372036854775808) with h | h <;> simp [h]
  rw [f64Sign, this, packF64_toNat neg h]
  cases neg <;> simp <;> omega

/-- A pattern is its sign and its magnitude bits. -/
theorem packF64_sign_mag (b : F64) : packF64 (f64Sign b) (f64Mag b) = b := by
  apply BitVec.eq_of_toNat_eq
  rw [packF64_toNat _ (f64Mag_lt b)]
  have : f64Sign b = decide (2 ^ 63 ≤ b.toNat) := by
    have := b.isLt
    simp only [f64Sign, BitVec.getLsbD, Nat.testBit, Nat.shiftRight_eq_div_pow]
    simp
    by_cases hb : 9223372036854775808 ≤ b.toNat
    · have : b.toNat / 9223372036854775808 = 1 := by omega
      simp [hb, this]
    · have : b.toNat / 9223372036854775808 = 0 := by omega
      simp [hb, this]
  have hb := b.isLt
  rw [this]
  simp only [f64Mag, BitVec.extractLsb'_toNat, Nat.shiftRight_zero, decide_eq_true_eq]
  split <;> omega

end Patterns

section Magnitudes

/-- The value of magnitude bits below infinity. -/
def magVal (g : Nat) : ℚ :=
  if g / 2 ^ 52 = 0 then g * 2 ^ (-1074 : ℤ) else (2 ^ 52 + g % 2 ^ 52 : ℕ) * 2 ^ ((g / 2 ^ 52 : ℕ) - 1075 : ℤ)

theorem f64Val_eq {b : F64} (h : f64Finite b = true) :
    f64Val b = (if f64Sign b then -1 else 1) * magVal (f64Mag b) := by
  have h1 : f64Exp b ≠ 0x7FF := by simpa [f64Finite] using h
  unfold f64Val FVal.ofBits magVal
  rw [if_neg h1, ← f64Exp_eq, ← f64Frac_eq]
  split
  · rename_i h0
    have := f64Mag_eq b
    rw [h0] at this
    rw [this]
    simp only [FVal.toRat, mul_assoc]
    norm_num
  · simp only [FVal.toRat, mul_assoc]

/-- `n` units of `2 ^ (j - 1074)` have the magnitude bits `j * 2 ^ 52 + n`. -/
theorem magVal_units {j n : Nat} (hn : n ≤ 2 ^ 53) (hj : j = 0 ∨ 2 ^ 52 ≤ n) :
    magVal (j * 2 ^ 52 + n) = n * 2 ^ (j - 1074 : ℤ) := by
  unfold magVal
  rcases Nat.lt_or_ge n (2 ^ 52) with h | h
  · have : j = 0 := by omega
    subst this
    rw [if_pos (by omega)]
    norm_num
  · rcases Nat.lt_or_ge n (2 ^ 53) with h2 | h2
    · rw [if_neg (by omega), show (j * 2 ^ 52 + n) / 2 ^ 52 = j + 1 by omega,
        show 2 ^ 52 + (j * 2 ^ 52 + n) % 2 ^ 52 = n by omega]
      congr 2
      push_cast
      ring
    · have : n = 2 ^ 53 := by omega
      subst this
      rw [if_neg (by omega), show (j * 2 ^ 52 + 2 ^ 53) / 2 ^ 52 = j + 2 by omega,
        show 2 ^ 52 + (j * 2 ^ 52 + 2 ^ 53) % 2 ^ 52 = 2 ^ 52 by omega,
        show ((j + 2 : ℕ) - 1075 : ℤ) = (j - 1074 : ℤ) + 1 by push_cast; ring, zpow_add₀ (by norm_num)]
      push_cast
      ring

/-- Every magnitude is a number of units. -/
theorem magVal_decompose (g : Nat) :
    ∃ j n : Nat, g = j * 2 ^ 52 + n ∧ n < 2 ^ 53 ∧ (j = 0 ∨ 2 ^ 52 ≤ n) ∧
      magVal g = n * 2 ^ (j - 1074 : ℤ) := by
  rcases Nat.lt_or_ge g (2 ^ 52) with h | h
  · refine ⟨0, g, by omega, by omega, .inl rfl, ?_⟩
    rw [← magVal_units (by omega) (.inl rfl)]
    simp
  · refine ⟨g / 2 ^ 52 - 1, 2 ^ 52 + g % 2 ^ 52, by omega, by omega, .inr (by omega), ?_⟩
    rw [← magVal_units (by omega) (.inr (by omega))]
    congr 1
    omega

theorem magVal_nonneg (g : Nat) : 0 ≤ magVal g := by
  obtain ⟨j, n, -, -, -, h⟩ := magVal_decompose g
  rw [h]
  positivity

theorem magVal_zero : magVal 0 = 0 := by simp [magVal]

/-- The last place of a value: how `x` splits into units of `2 ^ (j - 1074)`, `n` of them to the nearest
integer, ties to even. -/
structure Units (x : ℚ) (j n : Nat) : Prop where
  near : |(n : ℚ) - x / 2 ^ (j - 1074 : ℤ)| ≤ 1 / 2
  tie : |(n : ℚ) - x / 2 ^ (j - 1074 : ℤ)| = 1 / 2 → n % 2 = 0
  low : j = 0 ∨ (2 ^ 52 : ℚ) ≤ x / 2 ^ (j - 1074 : ℤ)
  high : x / 2 ^ (j - 1074 : ℤ) < 2 ^ 53

theorem Units.le {x : ℚ} {j n : Nat} (u : Units x j n) : n ≤ 2 ^ 53 := by
  have h1 := abs_le.1 u.near
  have h2 := u.high
  have : (n : ℚ) < 2 ^ 53 + 1 := by linarith [h1.2]
  have : n < 2 ^ 53 + 1 := by exact_mod_cast this
  omega

theorem Units.ge {x : ℚ} {j n : Nat} (u : Units x j n) : j = 0 ∨ 2 ^ 52 ≤ n := by
  rcases u.low with h | h
  · exact .inl h
  · right
    have h1 := abs_le.1 u.near
    have : (2 ^ 52 : ℚ) < n + 1 := by linarith [h1.1]
    have : 2 ^ 52 < n + 1 := by exact_mod_cast this
    omega

/-- The rounded magnitude is a nearest one, and its bits are even when another is as near. -/
theorem Units.nearest {x : ℚ} {j n : Nat} (u : Units x j n) (c : Nat) :
    |magVal (j * 2 ^ 52 + n) - x| ≤ |magVal c - x| ∧
      (magVal c ≠ magVal (j * 2 ^ 52 + n) → |magVal (j * 2 ^ 52 + n) - x| = |magVal c - x| →
        (j * 2 ^ 52 + n) % 2 = 0) := by
  obtain ⟨jc, nc, -, hnc, -, hc⟩ := magVal_decompose c
  rw [magVal_units u.le u.ge, hc]
  have hU : (0 : ℚ) < 2 ^ (j - 1074 : ℤ) := by positivity
  set U : ℚ := 2 ^ (j - 1074 : ℤ) with hUdef
  have near := u.near
  have tie := u.tie
  have low := u.low
  rw [← hUdef] at near tie low
  set y := x / U with hy
  have hx : x = y * U := by rw [hy]; field_simp
  have scale : ∀ z : ℚ, |z * U - x| = |z - y| * U := by
    intro z
    rw [hx, ← sub_mul, abs_mul, abs_of_pos hU]
  -- the other magnitude in the same units
  have split : (∃ k : ℕ, (nc : ℚ) * 2 ^ (jc - 1074 : ℤ) = k * U) ∨
      (j ≠ 0 ∧ ∃ z : ℚ, (nc : ℚ) * 2 ^ (jc - 1074 : ℤ) = z * U ∧ z < 2 ^ 52) := by
    rcases Nat.lt_or_ge jc j with h | h
    · right
      refine ⟨by omega, nc / 2 ^ (j - jc), ?_, ?_⟩
      · rw [hUdef, show (j - 1074 : ℤ) = (jc - 1074 : ℤ) + ((j - jc : ℕ) : ℤ) by omega,
          zpow_add₀ (by norm_num), zpow_natCast]
        field_simp
      · rw [div_lt_iff₀ (by positivity)]
        have h1 : (nc : ℚ) < 2 ^ 53 := by exact_mod_cast hnc
        have h2 : (2 : ℚ) ^ 1 ≤ 2 ^ (j - jc) := pow_le_pow_right₀ (by norm_num) (by omega)
        nlinarith
    · left
      refine ⟨nc * 2 ^ (jc - j), ?_⟩
      rw [hUdef, show (jc - 1074 : ℤ) = (j - 1074 : ℤ) + ((jc - j : ℕ) : ℤ) by omega,
        zpow_add₀ (by norm_num), zpow_natCast]
      push_cast
      ring
  rcases split with ⟨k, hk⟩ | ⟨hj, z, hz, hlt⟩
  · rw [hk, scale, scale]
    rcases eq_or_ne k n with rfl | hkn
    · exact ⟨le_rfl, fun h => absurd rfl h⟩
    · have gap : (1 : ℚ) ≤ |(k : ℚ) - n| := by
        have : (1 : ℤ) ≤ |(k : ℤ) - n| := Int.one_le_abs (by omega)
        exact_mod_cast this
      have far : (1 : ℚ) / 2 ≤ |(k : ℚ) - y| := by
        have := abs_sub_le (k : ℚ) y n
        rw [abs_sub_comm y] at this
        linarith
      refine ⟨mul_le_mul_of_nonneg_right (near.trans far) hU.le, fun _ h => ?_⟩
      have h := mul_right_cancel₀ hU.ne' h
      have := tie (le_antisymm near (h ▸ far))
      omega
  · rw [hz, scale, scale]
    have low : (2 : ℚ) ^ 52 ≤ y := low.resolve_left hj
    have h1 : |(n : ℚ) - y| < |z - y| := by
      rw [abs_of_neg (by linarith : z - y < 0)]
      rcases le_or_gt ((2 : ℚ) ^ 52 + 1 / 2) y with h | h
      · linarith
      · have : n = 2 ^ 52 := by
          have := abs_le.1 near
          have a : (2 ^ 52 : ℚ) - 1 < n := by linarith
          have b : (n : ℚ) < 2 ^ 52 + 1 := by
            rcases lt_or_eq_of_le near with g | g
            · have := abs_lt.1 g; linarith
            · have := abs_le.1 near; linarith
          have a : 2 ^ 52 < n + 1 := by
            have : (2 ^ 52 : ℚ) < (n : ℚ) + 1 := by linarith
            exact_mod_cast this
          have b : n < 2 ^ 52 + 1 := by exact_mod_cast b
          omega
        subst this
        rw [abs_of_nonpos (by push_cast; linarith)]
        push_cast
        linarith
    exact ⟨mul_le_mul_of_nonneg_right h1.le hU.le,
      fun _ h => absurd (mul_right_cancel₀ hU.ne' h) h1.ne⟩

end Magnitudes

section Rounding

/-- The overflow bound in units of 2^970. -/
theorem overflowBound_eq : overflowBound = (2 ^ 54 - 1) * 2 ^ (970 : ℤ) := by
  have e1 : (2 : ℚ) ^ 1024 = 2 ^ 54 * 2 ^ 970 := by rw [← pow_add]
  have e2 : (2 : ℚ) ^ (970 : ℤ) = 2 ^ 970 := zpow_natCast 2 970
  rw [overflowBound, e1, e2, sub_mul, one_mul]

theorem overflowBound_pos : 0 < overflowBound := by
  rw [overflowBound_eq]
  have : (0 : ℚ) < 2 ^ (970 : ℤ) := by positivity
  exact mul_pos (by norm_num) this

/-- A magnitude overflows exactly from the halfway point on. -/
theorem Units.overflow_iff {x : ℚ} {j n : Nat} (u : Units x j n) :
    infMag ≤ j * 2 ^ 52 + n ↔ overflowBound ≤ x := by
  have hU : (0 : ℚ) < 2 ^ (j - 1074 : ℤ) := by positivity
  have hx : x = x / 2 ^ (j - 1074 : ℤ) * 2 ^ (j - 1074 : ℤ) := by field_simp
  have hle := u.le
  have P970 : (0 : ℚ) < 2 ^ (970 : ℤ) := by positivity
  have e971 : (2 : ℚ) ^ (971 : ℤ) = 2 * 2 ^ (970 : ℤ) := by
    rw [show (971 : ℤ) = 1 + 970 by norm_num, zpow_add₀ (by norm_num), zpow_one]
  have e972 : (2 : ℚ) ^ (972 : ℤ) = 4 * 2 ^ (970 : ℤ) := by
    rw [show (972 : ℤ) = 2 + 970 by norm_num, zpow_add₀ (by norm_num)]
    norm_num
  rcases Nat.lt_or_ge j 2045 with h | h
  · constructor
    · intro hi
      simp only [infMag] at hi
      omega
    · intro hb
      exfalso
      have h1 : (2 : ℚ) ^ (j - 1074 : ℤ) ≤ 2 ^ (970 : ℤ) := zpow_le_zpow_right₀ (by norm_num) (by omega)
      have h2 : x < 2 ^ 53 * 2 ^ (970 : ℤ) := by
        rw [hx]
        exact mul_lt_mul u.high h1 hU (by norm_num)
      rw [overflowBound_eq] at hb
      generalize (2 : ℚ) ^ (970 : ℤ) = T at *
      norm_num at hb h2
      linarith only [hb, h2, P970]
  · rcases Nat.lt_or_ge j 2046 with h3 | h3
    · have : j = 2045 := by omega
      subst this
      have near := abs_le.1 u.near
      have tie := u.tie
      have e : ((2045 : ℕ) - 1074 : ℤ) = 971 := by norm_num
      rw [e] at near tie hx
      have high := u.high
      rw [e] at high
      have P : (0 : ℚ) < 2 ^ (971 : ℤ) := by positivity
      have iff1 : overflowBound ≤ x ↔ (2 ^ 53 - 1 / 2 : ℚ) ≤ x / 2 ^ (971 : ℤ) := by
        rw [le_div_iff₀ P, overflowBound_eq, e971]
        generalize (2 : ℚ) ^ (970 : ℤ) = T at *
        constructor <;> intro h <;> linarith only [h]
      rw [iff1]
      constructor
      · intro hi
        have : n = 2 ^ 53 := by simp only [infMag] at hi; omega
        subst this
        push_cast at near
        linarith [near.2]
      · intro hb
        have h1 : (2 ^ 53 : ℚ) - 1 ≤ n := by linarith [near.1]
        have h2 : 2 ^ 53 - 1 ≤ n := by
          have : (2 ^ 53 : ℚ) ≤ (n : ℚ) + 1 := by linarith
          have : 2 ^ 53 ≤ n + 1 := by exact_mod_cast this
          omega
        have : n ≠ 2 ^ 53 - 1 := by
          rintro rfl
          have h3 : ((2 ^ 53 - 1 : ℕ) : ℚ) = 2 ^ 53 - 1 := by norm_num
          rw [h3] at near tie
          have := tie (by rw [abs_of_nonpos (by linarith)]; linarith [near.1])
          norm_num at this
        simp only [infMag]
        omega
    · have hn := u.ge.resolve_left (by omega)
      have low := u.low.resolve_left (by omega)
      refine ⟨fun _ => ?_, fun _ => by simp only [infMag]; omega⟩
      have h1 : (2 : ℚ) ^ (972 : ℤ) ≤ 2 ^ (j - 1074 : ℤ) := zpow_le_zpow_right₀ (by norm_num) (by omega)
      have h2 : (2 : ℚ) ^ 52 * 2 ^ (972 : ℤ) ≤ x := by
        rw [hx]
        exact mul_le_mul low h1 (by positivity) (le_trans (by norm_num) low)
      rw [e972] at h2
      rw [overflowBound_eq]
      generalize (2 : ℚ) ^ (970 : ℤ) = T at *
      norm_num at h2 ⊢
      linarith only [h2, P970]

/-- A dropped part of `k` bits rounds to the nearest integer, ties to even. -/
theorem rneShift_near (m k : Nat) :
    |(rneShift m k : ℚ) - m / 2 ^ k| ≤ 1 / 2 ∧
      (|(rneShift m k : ℚ) - m / 2 ^ k| = 1 / 2 → rneShift m k % 2 = 0) := by
  have P : (0 : ℚ) < 2 ^ k := by positivity
  have hm : (m : ℚ) = 2 ^ k * (m / 2 ^ k : ℕ) + (m % 2 ^ k : ℕ) := by exact_mod_cast (Nat.div_add_mod m (2 ^ k)).symm
  have hr : ((m % 2 ^ k : ℕ) : ℚ) < 2 ^ k := by exact_mod_cast Nat.mod_lt m (by positivity)
  have hr0 : (0 : ℚ) ≤ (m % 2 ^ k : ℕ) := by positivity
  unfold rneShift
  set q := m / 2 ^ k
  set r := m % 2 ^ k
  have hdiv : (m : ℚ) / 2 ^ k = q + r / 2 ^ k := by rw [hm]; field_simp
  have hf0 : 0 ≤ (r : ℚ) / 2 ^ k := by positivity
  have hf1 : (r : ℚ) / 2 ^ k < 1 := by rw [div_lt_one P]; exact hr
  have c1 : 2 ^ k < 2 * r ↔ (1 : ℚ) / 2 < r / 2 ^ k := by
    rw [lt_div_iff₀ P]
    constructor
    · intro h
      have : ((2 ^ k : ℕ) : ℚ) < (2 * r : ℕ) := by exact_mod_cast h
      push_cast at this
      linarith
    · intro h
      have : ((2 ^ k : ℕ) : ℚ) < (2 * r : ℕ) := by push_cast; linarith
      exact_mod_cast this
  have c2 : 2 * r = 2 ^ k ↔ (r : ℚ) / 2 ^ k = 1 / 2 := by
    rw [div_eq_iff P.ne']
    constructor
    · intro h
      have : ((2 * r : ℕ) : ℚ) = (2 ^ k : ℕ) := by rw [h]
      push_cast at this
      linarith
    · intro h
      have : ((2 * r : ℕ) : ℚ) = (2 ^ k : ℕ) := by push_cast; linarith
      exact_mod_cast this
  rw [hdiv]
  dsimp only
  split
  · rename_i h
    rw [c1, c2] at h
    push_cast
    have hge : (1 : ℚ) / 2 ≤ r / 2 ^ k := by
      rcases h with h | h
      · exact h.le
      · exact h.1.ge
    rw [show (q : ℚ) + 1 - (q + r / 2 ^ k) = 1 - r / 2 ^ k by ring, abs_of_pos (by linarith)]
    refine ⟨by linarith, fun he => ?_⟩
    rcases h with h | h
    · linarith
    · omega
  · rename_i h
    rw [c1, c2] at h
    push Not at h
    rw [show (q : ℚ) - (q + r / 2 ^ k) = -(r / 2 ^ k) by ring, abs_neg, abs_of_nonneg hf0]
    refine ⟨h.1, fun he => ?_⟩
    have := h.2 he
    omega

/-- The units of the last place of `m * 2 ^ e` (R7). -/
theorem units_of_unitsAt {m : Nat} (hm : m ≠ 0) (e : Int) :
    Units (m * 2 ^ e) (lastPlace m e + 1074).toNat (unitsAt m e (lastPlace m e)) := by
  have hq : (-1074 : ℤ) ≤ lastPlace m e := le_max_right _ _
  have hj : (((lastPlace m e + 1074).toNat : ℤ) - 1074) = lastPlace m e := by omega
  have hlo : (2 : ℚ) ^ (m.log2 : ℤ) ≤ m := by
    rw [zpow_natCast]; exact_mod_cast Nat.log2_self_le hm
  have hhi : (m : ℚ) < 2 ^ ((m.log2 : ℤ) + 1) := by
    have : m < 2 ^ (m.log2 + 1) := Nat.lt_log2_self
    rw [show ((m.log2 : ℤ) + 1) = ((m.log2 + 1 : ℕ) : ℤ) by push_cast; rfl, zpow_natCast]
    exact_mod_cast this
  have key : (m : ℚ) * 2 ^ e / 2 ^ (lastPlace m e) = m * 2 ^ (e - lastPlace m e) := by
    rw [zpow_sub₀ (by norm_num), mul_div_assoc]
  have exactOrNear : |(unitsAt m e (lastPlace m e) : ℚ) - m * 2 ^ (e - lastPlace m e)| ≤ 1 / 2 ∧
      (|(unitsAt m e (lastPlace m e) : ℚ) - m * 2 ^ (e - lastPlace m e)| = 1 / 2 →
        unitsAt m e (lastPlace m e) % 2 = 0) := by
    unfold unitsAt
    split
    · rename_i h
      have : (2 : ℚ) ^ (e - lastPlace m e) = 2 ^ (e - lastPlace m e).toNat := by
        rw [← zpow_natCast]
        congr 1
        omega
      rw [this]
      push_cast
      rw [sub_self]
      norm_num
    · rename_i h
      have : (m : ℚ) * 2 ^ (e - lastPlace m e) = m / 2 ^ (lastPlace m e - e).toNat := by
        rw [div_eq_mul_inv, ← zpow_natCast, ← zpow_neg]
        congr 2
        omega
      rw [this]
      exact rneShift_near m _
  refine ⟨?_, ?_, ?_, ?_⟩
  · rw [hj, key]; exact exactOrNear.1
  · rw [hj, key]; exact exactOrNear.2
  · rw [hj, key]
    rcases le_or_gt ((m.log2 : ℤ) + e - 52) (-1074) with h | h
    · left
      have : lastPlace m e = -1074 := max_eq_right h
      omega
    · right
      have : lastPlace m e = (m.log2 : ℤ) + e - 52 := max_eq_left h.le
      have e1 : (2 : ℚ) ^ 52 = 2 ^ (m.log2 : ℤ) * 2 ^ (e - lastPlace m e) := by
        rw [← zpow_add₀ (by norm_num), this, show (m.log2 : ℤ) + (e - ((m.log2 : ℤ) + e - 52)) = 52 by ring]
        norm_num
      rw [e1]
      exact mul_le_mul_of_nonneg_right hlo (by positivity)
  · rw [hj, key]
    have h1 : (m.log2 : ℤ) + e - 52 ≤ lastPlace m e := le_max_left _ _
    have h2 : (m : ℚ) * 2 ^ (e - lastPlace m e) < 2 ^ ((m.log2 : ℤ) + 1) * 2 ^ (e - lastPlace m e) :=
      mul_lt_mul_of_pos_right hhi (by positivity)
    rw [← zpow_add₀ (by norm_num)] at h2
    refine h2.trans_le ?_
    rw [← zpow_natCast]
    exact zpow_le_zpow_right₀ (by norm_num) (by push_cast; omega)

/-- The rounding of a signed magnitude given its units. -/
theorem isRounded_of_units {x : ℚ} {j n : Nat} (neg : Bool) (hx : 0 ≤ x) (u : Units x j n) :
    IsRounded ((if neg then -1 else 1) * x) (packF64 neg (min (j * 2 ^ 52 + n) infMag)) := by
  set sgn : ℚ := if neg then -1 else 1 with hsgn
  have habs : |sgn * x| = x := by
    rw [abs_mul, abs_of_nonneg hx, hsgn]
    cases neg <;> simp
  have sq : sgn * sgn = 1 := by rw [hsgn]; cases neg <;> norm_num
  have sabs : ∀ z : ℚ, |sgn * z| = |z| := by
    intro z; rw [abs_mul, hsgn]; cases neg <;> simp
  by_cases hov : overflowBound ≤ x
  · left
    have := u.overflow_iff.2 hov
    rw [min_eq_right this, habs]
    refine ⟨hov, ?_⟩
    have hx0 : 0 < x := lt_of_lt_of_le overflowBound_pos hov
    congr 1
    rw [hsgn]
    cases neg <;> simp [hx0, hx]
  · right
    have hlt : j * 2 ^ 52 + n < infMag := by
      by_contra h
      exact hov (u.overflow_iff.1 (not_lt.1 h))
    rw [min_eq_left hlt.le]
    set g := j * 2 ^ 52 + n with hg
    have h63 : g < 2 ^ 63 := hlt.trans (by norm_num [infMag])
    have hfin : f64Finite (packF64 neg g) = true := by rw [f64Finite_iff, f64Mag_pack neg h63]; exact hlt
    have hval : f64Val (packF64 neg g) = sgn * magVal g := by
      rw [f64Val_eq hfin, f64Mag_pack neg h63, f64Sign_pack neg h63]
    have nearest := u.nearest
    rw [← hg] at nearest
    -- a finite pattern is as far as some magnitude, or farther
    have other : ∀ c : F64, f64Finite c = true →
        (f64Val c = sgn * magVal (f64Mag c)) ∨ (f64Val c = -(sgn * magVal (f64Mag c))) := by
      intro c hc
      rw [f64Val_eq hc, hsgn]
      cases neg <;> cases f64Sign c <;> simp
    have e1 : |f64Val (packF64 neg g) - sgn * x| = |magVal g - x| := by
      rw [hval, ← mul_sub, sabs]
    have zero := nearest 0
    rw [magVal_zero, zero_sub, abs_neg, abs_of_nonneg hx] at zero
    refine ⟨by rw [habs]; exact not_le.1 hov, hfin, ?_, ?_⟩
    · intro c hc
      rw [e1]
      rcases other c hc with h | h
      · rw [h, ← mul_sub, sabs]
        exact (nearest _).1
      · rw [h, ← neg_add', ← mul_add, abs_neg, sabs]
        have := magVal_nonneg (f64Mag c)
        rw [abs_of_nonneg (by linarith : 0 ≤ magVal (f64Mag c) + x)]
        linarith [zero.1]
    · intro c hc hne heq
      rw [f64Mag_pack neg h63]
      rw [e1] at heq
      rcases other c hc with h | h
      · rw [h, ← mul_sub, sabs] at heq
        refine (nearest _).2 (fun h' => hne ?_) heq
        rw [h, hval, h']
      · rw [h, ← neg_add', ← mul_add, abs_neg, sabs] at heq
        have hc0 := magVal_nonneg (f64Mag c)
        rw [abs_of_nonneg (by linarith : 0 ≤ magVal (f64Mag c) + x)] at heq
        have : magVal (f64Mag c) = 0 := by linarith [zero.1]
        refine zero.2 (fun h' => hne ?_) (by linarith)
        rw [h, this, hval, ← h']
        simp

/-- A zero is the rounding of zero, whatever its sign. -/
theorem isRounded_zero (neg : Bool) : IsRounded 0 (packF64 neg 0) := by
  have hfin : f64Finite (packF64 neg 0) = true := by cases neg <;> decide
  have hval : f64Val (packF64 neg 0) = 0 := by
    rw [f64Val_eq hfin, f64Mag_pack neg (by norm_num), magVal_zero, mul_zero]
  refine .inr ⟨by simpa using overflowBound_pos, hfin, ?_, ?_⟩
  · intro c _
    simp [hval]
  · intro c _ hne heq
    rw [hval] at hne heq
    simp only [sub_zero, abs_zero] at heq
    exact absurd (abs_eq_zero.1 heq.symm) hne

/-- `roundF64` rounds to nearest, ties to even (R7). -/
theorem roundF64_isRounded (neg : Bool) (m : Nat) (e : Int) :
    IsRounded ((if neg then -1 else 1) * (m * 2 ^ e)) (roundF64 neg m e) := by
  rw [roundF64, roundMag]
  by_cases h0 : m = 0
  · rw [if_pos h0, h0]
    simpa using isRounded_zero neg
  · rw [if_neg h0]
    exact isRounded_of_units neg (by positivity) (units_of_unitsAt h0 e)

end Rounding

end Sys2Proof.Machine
end

