-- ==== Sys2Proof/Laws/State.lean ====
section
/-! SUPPORT. One lemma per field per update of the state, each true by definition, and the history read
after each update. -/

namespace Sys2Proof.Machine

section SetHist

variable (s : State) (i : BitVec 3) (v : F64)

@[simp] theorem setHist_h : (s.setHist i v).h = s.h.set i.toNat v i.isLt := rfl
@[simp] theorem setHist_idx : (s.setHist i v).idx = s.idx := rfl
@[simp] theorem setHist_out : (s.setHist i v).out = s.out := rfl
@[simp] theorem setHist_xhi : (s.setHist i v).xhi = s.xhi := rfl
@[simp] theorem setHist_xlo : (s.setHist i v).xlo = s.xlo := rfl
@[simp] theorem setHist_fres : (s.setHist i v).fres = s.fres := rfl
@[simp] theorem setHist_ill : (s.setHist i v).ill = s.ill := rfl
@[simp] theorem setHist_berr : (s.setHist i v).berr = s.berr := rfl
@[simp] theorem setHist_ecause : (s.setHist i v).ecause = s.ecause := rfl
@[simp] theorem setHist_inputs : (s.setHist i v).inputs = s.inputs := rfl
@[simp] theorem setHist_returned : (s.setHist i v).returned = s.returned := rfl
@[simp] theorem setHist_noise : (s.setHist i v).noise = s.noise := rfl
@[simp] theorem setHist_drawn : (s.setHist i v).drawn = s.drawn := rfl

end SetHist

section SetIdx

variable (s : State) (v : BitVec 3)

@[simp] theorem setIdx_h : (s.setIdx v).h = s.h := rfl
@[simp] theorem setIdx_idx : (s.setIdx v).idx = v := rfl
@[simp] theorem setIdx_out : (s.setIdx v).out = s.out := rfl
@[simp] theorem setIdx_xhi : (s.setIdx v).xhi = s.xhi := rfl
@[simp] theorem setIdx_xlo : (s.setIdx v).xlo = s.xlo := rfl
@[simp] theorem setIdx_fres : (s.setIdx v).fres = s.fres := rfl
@[simp] theorem setIdx_ill : (s.setIdx v).ill = s.ill := rfl
@[simp] theorem setIdx_berr : (s.setIdx v).berr = s.berr := rfl
@[simp] theorem setIdx_ecause : (s.setIdx v).ecause = s.ecause := rfl
@[simp] theorem setIdx_inputs : (s.setIdx v).inputs = s.inputs := rfl
@[simp] theorem setIdx_returned : (s.setIdx v).returned = s.returned := rfl
@[simp] theorem setIdx_noise : (s.setIdx v).noise = s.noise := rfl
@[simp] theorem setIdx_drawn : (s.setIdx v).drawn = s.drawn := rfl
@[simp] theorem setIdx_hist (j : BitVec 3) : (s.setIdx v).hist j = s.hist j := rfl

end SetIdx

section SetOut

variable (s : State) (v : Byte)

@[simp] theorem setOut_h : (s.setOut v).h = s.h := rfl
@[simp] theorem setOut_idx : (s.setOut v).idx = s.idx := rfl
@[simp] theorem setOut_out : (s.setOut v).out = v := rfl
@[simp] theorem setOut_xhi : (s.setOut v).xhi = s.xhi := rfl
@[simp] theorem setOut_xlo : (s.setOut v).xlo = s.xlo := rfl
@[simp] theorem setOut_fres : (s.setOut v).fres = s.fres := rfl
@[simp] theorem setOut_ill : (s.setOut v).ill = s.ill := rfl
@[simp] theorem setOut_berr : (s.setOut v).berr = s.berr := rfl
@[simp] theorem setOut_ecause : (s.setOut v).ecause = s.ecause := rfl
@[simp] theorem setOut_inputs : (s.setOut v).inputs = s.inputs := rfl
@[simp] theorem setOut_returned : (s.setOut v).returned = s.returned := rfl
@[simp] theorem setOut_noise : (s.setOut v).noise = s.noise := rfl
@[simp] theorem setOut_drawn : (s.setOut v).drawn = s.drawn := rfl
@[simp] theorem setOut_hist (j : BitVec 3) : (s.setOut v).hist j = s.hist j := rfl

end SetOut

section SetXhi

variable (s : State) (v : Word)

@[simp] theorem setXhi_h : (s.setXhi v).h = s.h := rfl
@[simp] theorem setXhi_idx : (s.setXhi v).idx = s.idx := rfl
@[simp] theorem setXhi_out : (s.setXhi v).out = s.out := rfl
@[simp] theorem setXhi_xhi : (s.setXhi v).xhi = v := rfl
@[simp] theorem setXhi_xlo : (s.setXhi v).xlo = s.xlo := rfl
@[simp] theorem setXhi_fres : (s.setXhi v).fres = s.fres := rfl
@[simp] theorem setXhi_ill : (s.setXhi v).ill = s.ill := rfl
@[simp] theorem setXhi_berr : (s.setXhi v).berr = s.berr := rfl
@[simp] theorem setXhi_ecause : (s.setXhi v).ecause = s.ecause := rfl
@[simp] theorem setXhi_inputs : (s.setXhi v).inputs = s.inputs := rfl
@[simp] theorem setXhi_returned : (s.setXhi v).returned = s.returned := rfl
@[simp] theorem setXhi_noise : (s.setXhi v).noise = s.noise := rfl
@[simp] theorem setXhi_drawn : (s.setXhi v).drawn = s.drawn := rfl
@[simp] theorem setXhi_hist (j : BitVec 3) : (s.setXhi v).hist j = s.hist j := rfl

end SetXhi

section SetXlo

variable (s : State) (v : Word)

@[simp] theorem setXlo_h : (s.setXlo v).h = s.h := rfl
@[simp] theorem setXlo_idx : (s.setXlo v).idx = s.idx := rfl
@[simp] theorem setXlo_out : (s.setXlo v).out = s.out := rfl
@[simp] theorem setXlo_xhi : (s.setXlo v).xhi = s.xhi := rfl
@[simp] theorem setXlo_xlo : (s.setXlo v).xlo = v := rfl
@[simp] theorem setXlo_fres : (s.setXlo v).fres = s.fres := rfl
@[simp] theorem setXlo_ill : (s.setXlo v).ill = s.ill := rfl
@[simp] theorem setXlo_berr : (s.setXlo v).berr = s.berr := rfl
@[simp] theorem setXlo_ecause : (s.setXlo v).ecause = s.ecause := rfl
@[simp] theorem setXlo_inputs : (s.setXlo v).inputs = s.inputs := rfl
@[simp] theorem setXlo_returned : (s.setXlo v).returned = s.returned := rfl
@[simp] theorem setXlo_noise : (s.setXlo v).noise = s.noise := rfl
@[simp] theorem setXlo_drawn : (s.setXlo v).drawn = s.drawn := rfl
@[simp] theorem setXlo_hist (j : BitVec 3) : (s.setXlo v).hist j = s.hist j := rfl

end SetXlo

section SetFres

variable (s : State) (v : F64)

@[simp] theorem setFres_h : (s.setFres v).h = s.h := rfl
@[simp] theorem setFres_idx : (s.setFres v).idx = s.idx := rfl
@[simp] theorem setFres_out : (s.setFres v).out = s.out := rfl
@[simp] theorem setFres_xhi : (s.setFres v).xhi = s.xhi := rfl
@[simp] theorem setFres_xlo : (s.setFres v).xlo = s.xlo := rfl
@[simp] theorem setFres_fres : (s.setFres v).fres = v := rfl
@[simp] theorem setFres_ill : (s.setFres v).ill = s.ill := rfl
@[simp] theorem setFres_berr : (s.setFres v).berr = s.berr := rfl
@[simp] theorem setFres_ecause : (s.setFres v).ecause = s.ecause := rfl
@[simp] theorem setFres_inputs : (s.setFres v).inputs = s.inputs := rfl
@[simp] theorem setFres_returned : (s.setFres v).returned = s.returned := rfl
@[simp] theorem setFres_noise : (s.setFres v).noise = s.noise := rfl
@[simp] theorem setFres_drawn : (s.setFres v).drawn = s.drawn := rfl
@[simp] theorem setFres_hist (j : BitVec 3) : (s.setFres v).hist j = s.hist j := rfl

end SetFres

section FreshDither

variable (s : State)

@[simp] theorem freshDither_h : s.freshDither.h = Vector.replicate 8 0 := rfl
@[simp] theorem freshDither_idx : s.freshDither.idx = 0 := rfl
@[simp] theorem freshDither_out : s.freshDither.out = s.out := rfl
@[simp] theorem freshDither_xhi : s.freshDither.xhi = s.xhi := rfl
@[simp] theorem freshDither_xlo : s.freshDither.xlo = s.xlo := rfl
@[simp] theorem freshDither_fres : s.freshDither.fres = s.fres := rfl
@[simp] theorem freshDither_ill : s.freshDither.ill = s.ill := rfl
@[simp] theorem freshDither_berr : s.freshDither.berr = s.berr := rfl
@[simp] theorem freshDither_ecause : s.freshDither.ecause = s.ecause := rfl
@[simp] theorem freshDither_inputs : s.freshDither.inputs = s.inputs := rfl
@[simp] theorem freshDither_returned : s.freshDither.returned = s.returned := rfl
@[simp] theorem freshDither_noise : s.freshDither.noise = s.noise := rfl
@[simp] theorem freshDither_drawn : s.freshDither.drawn = s.drawn := rfl

end FreshDither

section ClearErrors

variable (s : State)

@[simp] theorem clearErrors_h : s.clearErrors.h = s.h := rfl
@[simp] theorem clearErrors_idx : s.clearErrors.idx = s.idx := rfl
@[simp] theorem clearErrors_out : s.clearErrors.out = s.out := rfl
@[simp] theorem clearErrors_xhi : s.clearErrors.xhi = s.xhi := rfl
@[simp] theorem clearErrors_xlo : s.clearErrors.xlo = s.xlo := rfl
@[simp] theorem clearErrors_fres : s.clearErrors.fres = s.fres := rfl
@[simp] theorem clearErrors_ill : s.clearErrors.ill = false := rfl
@[simp] theorem clearErrors_berr : s.clearErrors.berr = false := rfl
@[simp] theorem clearErrors_ecause : s.clearErrors.ecause = 0 := rfl
@[simp] theorem clearErrors_inputs : s.clearErrors.inputs = s.inputs := rfl
@[simp] theorem clearErrors_returned : s.clearErrors.returned = s.returned := rfl
@[simp] theorem clearErrors_noise : s.clearErrors.noise = s.noise := rfl
@[simp] theorem clearErrors_drawn : s.clearErrors.drawn = s.drawn := rfl
@[simp] theorem clearErrors_hist (j : BitVec 3) : s.clearErrors.hist j = s.hist j := rfl

end ClearErrors

section Raise

variable (s : State) (c : ErrCause)

@[simp] theorem raise_h : (s.raise c).h = s.h := rfl
@[simp] theorem raise_idx : (s.raise c).idx = s.idx := rfl
@[simp] theorem raise_out : (s.raise c).out = s.out := rfl
@[simp] theorem raise_xhi : (s.raise c).xhi = s.xhi := rfl
@[simp] theorem raise_xlo : (s.raise c).xlo = s.xlo := rfl
@[simp] theorem raise_fres : (s.raise c).fres = s.fres := rfl
@[simp] theorem raise_ill : (s.raise c).ill = (s.ill || causeIsIll c) := rfl
@[simp] theorem raise_berr : (s.raise c).berr = (s.berr || !causeIsIll c) := rfl
@[simp] theorem raise_ecause : (s.raise c).ecause = firstCause c s := rfl
@[simp] theorem raise_inputs : (s.raise c).inputs = s.inputs := rfl
@[simp] theorem raise_returned : (s.raise c).returned = s.returned := rfl
@[simp] theorem raise_noise : (s.raise c).noise = s.noise := rfl
@[simp] theorem raise_drawn : (s.raise c).drawn = s.drawn := rfl
@[simp] theorem raise_hist (j : BitVec 3) : (s.raise c).hist j = s.hist j := rfl

end Raise

section GiveHost

variable (s : State) (w : Word)

@[simp] theorem giveHost_h : (s.giveHost w).h = s.h := rfl
@[simp] theorem giveHost_idx : (s.giveHost w).idx = s.idx := rfl
@[simp] theorem giveHost_out : (s.giveHost w).out = s.out := rfl
@[simp] theorem giveHost_xhi : (s.giveHost w).xhi = s.xhi := rfl
@[simp] theorem giveHost_xlo : (s.giveHost w).xlo = s.xlo := rfl
@[simp] theorem giveHost_fres : (s.giveHost w).fres = s.fres := rfl
@[simp] theorem giveHost_ill : (s.giveHost w).ill = s.ill := rfl
@[simp] theorem giveHost_berr : (s.giveHost w).berr = s.berr := rfl
@[simp] theorem giveHost_ecause : (s.giveHost w).ecause = s.ecause := rfl
@[simp] theorem giveHost_inputs : (s.giveHost w).inputs = s.inputs := rfl
@[simp] theorem giveHost_returned : (s.giveHost w).returned = s.returned ++ [w] := rfl
@[simp] theorem giveHost_noise : (s.giveHost w).noise = s.noise := rfl
@[simp] theorem giveHost_drawn : (s.giveHost w).drawn = s.drawn := rfl
@[simp] theorem giveHost_hist (j : BitVec 3) : (s.giveHost w).hist j = s.hist j := rfl

end GiveHost

section WithInputs

variable (s : State) (l : List HostInput)

@[simp] theorem withInputs_h : (s.withInputs l).h = s.h := rfl
@[simp] theorem withInputs_idx : (s.withInputs l).idx = s.idx := rfl
@[simp] theorem withInputs_out : (s.withInputs l).out = s.out := rfl
@[simp] theorem withInputs_xhi : (s.withInputs l).xhi = s.xhi := rfl
@[simp] theorem withInputs_xlo : (s.withInputs l).xlo = s.xlo := rfl
@[simp] theorem withInputs_fres : (s.withInputs l).fres = s.fres := rfl
@[simp] theorem withInputs_ill : (s.withInputs l).ill = s.ill := rfl
@[simp] theorem withInputs_berr : (s.withInputs l).berr = s.berr := rfl
@[simp] theorem withInputs_ecause : (s.withInputs l).ecause = s.ecause := rfl
@[simp] theorem withInputs_inputs : (s.withInputs l).inputs = l := rfl
@[simp] theorem withInputs_returned : (s.withInputs l).returned = s.returned := rfl
@[simp] theorem withInputs_noise : (s.withInputs l).noise = s.noise := rfl
@[simp] theorem withInputs_drawn : (s.withInputs l).drawn = s.drawn := rfl
@[simp] theorem withInputs_hist (j : BitVec 3) : (s.withInputs l).hist j = s.hist j := rfl

end WithInputs

section History

variable (s t : State)

/-- A write of the history reads back, and leaves the other entries alone. -/
@[simp] theorem setHist_hist (i j : BitVec 3) (v : F64) :
    (s.setHist i v).hist j = if i = j then v else s.hist j := by
  simp [State.hist, State.setHist, Vector.getElem_set, BitVec.toNat_inj]

@[simp] theorem freshDither_hist (j : BitVec 3) : s.freshDither.hist j = 0 := by
  simp [State.hist, State.freshDither]

/-- The history is its eight entries. -/
theorem h_eq_of_hist_eq (hst : ∀ i, t.hist i = s.hist i) : t.h = s.h := by
  apply Vector.ext
  intro i hi
  simpa [State.hist, Nat.mod_eq_of_lt hi] using hst (BitVec.ofNat 3 i)

theorem hist_of_h_eq (hst : t.h = s.h) (i : BitVec 3) : t.hist i = s.hist i := by
  simp [State.hist, hst]

end History

section ResetEvent

variable (s : State) (p : Option TPattern)

@[simp] theorem resetBlock_h : (resetBlock p s).h = Vector.replicate 8 0 := rfl
@[simp] theorem resetBlock_idx : (resetBlock p s).idx = 0 := rfl
@[simp] theorem resetBlock_out : (resetBlock p s).out = 0 := rfl
@[simp] theorem resetBlock_xhi : (resetBlock p s).xhi = 0 := rfl
@[simp] theorem resetBlock_xlo : (resetBlock p s).xlo = 0 := rfl
@[simp] theorem resetBlock_fres : (resetBlock p s).fres = 0 := rfl
@[simp] theorem resetBlock_ill : (resetBlock p s).ill = false := rfl
@[simp] theorem resetBlock_berr : (resetBlock p s).berr = false := rfl
@[simp] theorem resetBlock_ecause : (resetBlock p s).ecause = 0 := rfl
@[simp] theorem resetBlock_inputs : (resetBlock p s).inputs = s.inputs := rfl
@[simp] theorem resetBlock_returned : (resetBlock p s).returned = s.returned := rfl
@[simp] theorem resetBlock_noise : (resetBlock p s).noise = s.noise := rfl
@[simp] theorem resetBlock_drawn : (resetBlock p s).drawn = s.drawn := rfl

@[simp] theorem resetBlock_hist (j : BitVec 3) : (resetBlock p s).hist j = 0 := by
  simp [State.hist]

end ResetEvent

section DitherWrite

variable (s : State) (xe r : F64)

@[simp] theorem ditherWrite_h : (ditherWrite xe r s).h = s.h.set (s.idx + 1).toNat (f64Sub xe r) (s.idx + 1).isLt := rfl
@[simp] theorem ditherWrite_idx : (ditherWrite xe r s).idx = s.idx + 1 := rfl
@[simp] theorem ditherWrite_out : (ditherWrite xe r s).out = clampbyte r := rfl
@[simp] theorem ditherWrite_xhi : (ditherWrite xe r s).xhi = s.xhi := rfl
@[simp] theorem ditherWrite_xlo : (ditherWrite xe r s).xlo = s.xlo := rfl
@[simp] theorem ditherWrite_fres : (ditherWrite xe r s).fres = s.fres := rfl
@[simp] theorem ditherWrite_ill : (ditherWrite xe r s).ill = s.ill := rfl
@[simp] theorem ditherWrite_berr : (ditherWrite xe r s).berr = s.berr := rfl
@[simp] theorem ditherWrite_ecause : (ditherWrite xe r s).ecause = s.ecause := rfl
@[simp] theorem ditherWrite_inputs : (ditherWrite xe r s).inputs = s.inputs := rfl
@[simp] theorem ditherWrite_returned : (ditherWrite xe r s).returned = s.returned := rfl
@[simp] theorem ditherWrite_noise : (ditherWrite xe r s).noise = s.noise := rfl
@[simp] theorem ditherWrite_drawn : (ditherWrite xe r s).drawn = s.drawn := rfl

@[simp] theorem ditherWrite_hist (j : BitVec 3) :
    (ditherWrite xe r s).hist j = if s.idx + 1 = j then f64Sub xe r else s.hist j := by
  simp [ditherWrite]

end DitherWrite

section Frames

theorem SameBlock.refl (s : State) : SameBlock s s := ⟨rfl, rfl, rfl, rfl, rfl, rfl, rfl, rfl, rfl⟩

theorem SameBlock.hist {s t : State} (h : SameBlock s t) (i : BitVec 3) : t.hist i = s.hist i :=
  hist_of_h_eq s t h.h i

end Frames

end Sys2Proof.Machine
end

