-- ==== Sys2Proof/Laws/Ops.lean ====
section
/-! SUPPORT. One lemma per shared operation that says all it can do. -/

namespace Sys2Proof.Machine

section Raise

/-- The first error: its code is recorded. -/
theorem raise_first {s : State} (c : ErrCause) (h : s.errorFree) : (s.raise c).ecause = causeCode c := by
  simp [firstCause, h.1, h.2]

/-- A later error: the code of the first one stays. -/
theorem raise_later {s : State} (c : ErrCause) (h : ¬ s.errorFree) : (s.raise c).ecause = s.ecause := by
  simp only [raise_ecause, firstCause, State.errorFree] at *
  cases hi : s.ill <;> cases hb : s.berr <;> simp_all

/-- After an error report a sticky bit is set. -/
theorem raise_not_errorFree (s : State) (c : ErrCause) : ¬ (s.raise c).errorFree := by
  cases c <;> simp [State.errorFree, causeIsIll]

theorem causeCode_range (c : ErrCause) : 1 ≤ causeCode c ∧ causeCode c ≤ 5 := by cases c <;> decide

theorem causeIsIll_iff_code (c : ErrCause) : causeIsIll c = true ↔ causeCode c ≤ 3 := by cases c <;> decide

end Raise

section Draw

/-- A free pair lies in the range (00_scope.md R12). -/
theorem freePair_inRange (n : Nat) : (freePair n).inRange = true := by
  have clip : ∀ u, inHalfRange (clipToRange u) = true := by
    intro u
    unfold clipToRange
    split
    · assumption
    · decide
  simp [NoisePair.inRange, freePair, clip]

/-- All a draw can do: the pair lies in the range, is the first of the supplied ones if there is one, and
only the noise fields of the state move. -/
theorem drawNoise_some {s t : State} {p : NoisePair} (h : drawNoise s = some (p, t)) :
    p.inRange = true ∧ t = { s with noise := s.noise.tail, drawn := s.drawn + 1 } ∧
      (s.noise.head? = some p ∨ (s.noise = [] ∧ p = freePair s.drawn)) := by
  unfold drawNoise at h
  split at h
  · rename_i hn
    cases h
    exact ⟨freePair_inRange _, by simp [hn], .inr ⟨hn, rfl⟩⟩
  · rename_i q rest hn
    split at h
    · rename_i hq
      cases h
      exact ⟨hq, by simp [hn], .inl (by simp [hn])⟩
    · cases h

/-- A draw is turned away exactly when the supplied pair leaves the range. -/
theorem drawNoise_none {s : State} : drawNoise s = none ↔ ∃ p rest, s.noise = p :: rest ∧ p.inRange = false := by
  unfold drawNoise
  split
  · rename_i hn
    simp [hn]
  · rename_i q rest hn
    split <;> simp_all

theorem drawNoise_supplied {s : State} {p : NoisePair} {rest : List NoisePair}
    (hn : s.noise = p :: rest) (hp : p.inRange = true) :
    drawNoise s = some (p, { s with noise := rest, drawn := s.drawn + 1 }) := by
  simp [drawNoise, hn, hp]

theorem drawNoise_free {s : State} (hn : s.noise = []) :
    drawNoise s = some (freePair s.drawn, { s with drawn := s.drawn + 1 }) := by
  simp [drawNoise, hn]

end Draw

section Read

variable (s : State)

@[simp] theorem busRead_cmd : busRead .cmd s = 0 := rfl
@[simp] theorem busRead_status : busRead .status s = statusWord s := rfl
@[simp] theorem busRead_xhi : busRead .xhi s = s.xhi := rfl
@[simp] theorem busRead_xlo : busRead .xlo s = s.xlo := rfl
@[simp] theorem busRead_fresl : busRead .fresl s = s.fres.extractLsb' 0 32 := rfl
@[simp] theorem busRead_fresh : busRead .fresh s = s.fres.extractLsb' 32 32 := rfl
@[simp] theorem busRead_hl (i : BitVec 3) : busRead (.hl i) s = (s.hist i).extractLsb' 0 32 := rfl
@[simp] theorem busRead_hh (i : BitVec 3) : busRead (.hh i) s = (s.hist i).extractLsb' 32 32 := rfl
@[simp] theorem busRead_reservedLow (i : Fin 10) : busRead (.reservedLow i) s = 0 := rfl
@[simp] theorem busRead_reservedHigh (i : Fin 32) : busRead (.reservedHigh i) s = 0 := rfl

variable {s}

/-- A read depends on the block's state only. -/
theorem busRead_of_sameBlock {t : State} (h : SameBlock s t) (slot : Slot) : busRead slot t = busRead slot s := by
  cases slot <;> simp [h.xhi, h.xlo, h.fres, h.hist, statusWord, h.ecause, h.berr, h.ill, h.idx, h.out]

end Read

end Sys2Proof.Machine
end

