-- ==== Sys2Proof/Laws/PerInstr.lean ====
section
/-! SUPPORT. One family of statements made per instruction: the pattern an instruction encodes to is one of
its own row of spec/opcode_table.json. -/

namespace Sys2Proof.Laws

/-- The row of an instruction in spec/opcode_table.json as a mask and a match over the T pattern. A command
row is 32 bits wide, `W = 1` and `A = 0` above it by the table's note. -/
def tableRow : Instr → TPattern × TPattern
  | .nop => (0x7FFFFFFFFF, 0x4000000000)
  | .drst => (0x7FFFFFFFFF, 0x4001000000)
  | .eclr => (0x7FFFFFFFFF, 0x4002000000)
  | .byp8 _ => (0x7FFFFFFF00, 0x4010000000)
  | .q16 _ => (0x7FFFFF0000, 0x4011000000)
  | .q16d _ => (0x7FFFFF0000, 0x4012000000)
  | .xcvt _ => (0x7FFFFF0000, 0x4020000000)
  | .rd _ => (0x4000000000, 0x0000000000)
  | .wrXhi _ => (0x7F00000000, 0x4200000000)
  | .wrXlo _ => (0x7F00000000, 0x4300000000)
  | .wrBad _ _ => (0x4000000000, 0x4000000000)

/-- A well-formed instruction encodes to a pattern its own row of the table matches. -/
def EncodesRow.Statement (i : Instr) : Prop :=
  i.wellFormed = true → encode i &&& (tableRow i).1 = (tableRow i).2

/-- A pattern matches a row when each of its bits does. -/
theorem matches_row {t mask word : TPattern}
    (h : ∀ n < 39, (t.getLsbD n && mask.getLsbD n) = word.getLsbD n) : t &&& mask = word := by
  apply BitVec.eq_of_getLsbD_eq
  intro n hn
  rw [BitVec.getLsbD_and]
  exact h n hn

theorem EncodesRow.nop : EncodesRow.Statement .nop := fun _ => by decide

theorem EncodesRow.drst : EncodesRow.Statement .drst := fun _ => by decide

theorem EncodesRow.eclr : EncodesRow.Statement .eclr := fun _ => by decide

theorem EncodesRow.byp8 (b : Byte) : EncodesRow.Statement (.byp8 b) := by
  intro _
  refine matches_row fun n hn => ?_
  have hb : (0#8 ++ b).getLsbD n = if n < 8 then b.getLsbD n else false := by
    rw [BitVec.getLsbD_append]
    simp
  simp only [encode, tWrite_getLsbD, cWord_getLsbD, hb, tableRow]
  interval_cases n <;> simp

/-- The three commands with a 16-bit operand. -/
theorem imm_matches_row (op : BitVec 8) (imm : BitVec 16) :
    tWrite 0 (cWord op imm) &&& 0x7FFFFF0000 = tWrite 0 (cWord op 0) := by
  refine matches_row fun n hn => ?_
  simp only [tWrite_getLsbD, cWord_getLsbD]
  interval_cases n <;> simp

theorem EncodesRow.q16 (imm : BitVec 16) : EncodesRow.Statement (.q16 imm) :=
  fun _ => (imm_matches_row _ imm).trans rfl

theorem EncodesRow.q16d (imm : BitVec 16) : EncodesRow.Statement (.q16d imm) :=
  fun _ => (imm_matches_row _ imm).trans rfl

theorem EncodesRow.xcvt (imm : BitVec 16) : EncodesRow.Statement (.xcvt imm) :=
  fun _ => (imm_matches_row _ imm).trans rfl

theorem EncodesRow.rd (slot : Slot) : EncodesRow.Statement (.rd slot) := by
  intro _
  refine matches_row fun n hn => ?_
  simp only [encode, tRead_getLsbD, tableRow]
  interval_cases n <;> simp

/-- A write pattern under the mask of its address field. -/
theorem write_matches_row (a : BitVec 6) (d : Word) : tWrite a d &&& 0x7F00000000 = tWrite a 0 := by
  refine matches_row fun n hn => ?_
  simp only [tWrite_getLsbD]
  interval_cases n <;> simp

theorem EncodesRow.wrXhi (d : Word) : EncodesRow.Statement (.wrXhi d) :=
  fun _ => (write_matches_row _ d).trans rfl

theorem EncodesRow.wrXlo (d : Word) : EncodesRow.Statement (.wrXlo d) :=
  fun _ => (write_matches_row _ d).trans rfl

theorem EncodesRow.wrBad (slot : Slot) (d : Word) : EncodesRow.Statement (.wrBad slot d) := by
  intro _
  refine matches_row fun n hn => ?_
  simp only [encode, tWrite_getLsbD, tableRow]
  interval_cases n <;> simp

end Sys2Proof.Laws
end

