-- ==== Sys2Proof/Laws/Rounding.lean ====
section
/-! SUPPORT. What follows from a value being rounded (monotone, exact where a pattern has the value), which
values have a pattern, and the exact sums and quotients the arithmetic rounds. -/

namespace Sys2Proof.Machine

section Values

/-- What a finite pattern decomposes into. -/
theorem ofBits_fin {b : F64} (h : f64Finite b = true) :
    ∃ s m e, FVal.ofBits b = .fin s m e ∧ s = f64Sign b ∧ m < 2 ^ 53 ∧ -1074 ≤ e ∧ e ≤ 971 := by
  have h1 : f64Exp b ≠ 0x7FF := by simpa [f64Finite] using h
  have h2 := f64Frac_lt b
  have h3 := f64Exp_lt b
  unfold FVal.ofBits
  rw [if_neg h1]
  split
  · exact ⟨_, _, _, rfl, rfl, by omega, by omega, by omega⟩
  · exact ⟨_, _, _, rfl, rfl, by omega, by omega, by omega⟩

/-- A pattern that decomposes into a number is finite and has its value. -/
theorem f64Val_of_fin {c : F64} {s : Bool} {m : Nat} {e : Int} (h : FVal.ofBits c = .fin s m e) :
    f64Finite c = true ∧ f64Val c = (if s then -1 else 1) * m * 2 ^ e := by
  refine ⟨?_, by simp [f64Val, h, FVal.toRat]⟩
  simp only [f64Finite, decide_eq_true_eq]
  intro h1
  unfold FVal.ofBits at h
  rw [if_pos h1] at h
  split at h <;> cases h

theorem f64Val_pack (neg : Bool) {g : Nat} (h : g < infMag) :
    f64Finite (packF64 neg g) = true ∧ f64Val (packF64 neg g) = (if neg then -1 else 1) * magVal g := by
  have h63 : g < 2 ^ 63 := h.trans (by norm_num [infMag])
  have hf : f64Finite (packF64 neg g) = true := by rw [f64Finite_iff, f64Mag_pack _ h63]; exact h
  exact ⟨hf, by rw [f64Val_eq hf, f64Mag_pack _ h63, f64Sign_pack _ h63]⟩

theorem f64Val_zero : f64Val 0 = 0 := by
  have := (f64Val_pack false (g := 0) (by decide)).2
  rw [magVal_zero, mul_zero] at this
  exact this

/-- Negation flips the sign and nothing else. -/
theorem f64Neg_eq (b : F64) : f64Neg b = packF64 (!f64Sign b) (f64Mag b) := by
  have h1 : f64Sign (f64Neg b) = !f64Sign b := by simp [f64Sign, f64Neg]
  have h2 : f64Mag (f64Neg b) = f64Mag b := by
    simp only [f64Mag, f64Neg]
    congr 1
    ext i hi
    have : (0x8000000000000000#64).getLsbD (0 + i) = false := by clear * - hi; revert i; decide
    simp only [BitVec.getElem_extractLsb', BitVec.getLsbD_xor, this, Bool.xor_false]
  rw [← packF64_sign_mag (f64Neg b), h1, h2]

theorem f64Val_neg {b : F64} (h : f64Finite b = true) :
    f64Finite (f64Neg b) = true ∧ f64Val (f64Neg b) = -f64Val b := by
  have := f64Val_pack (!f64Sign b) ((f64Finite_iff b).1 h)
  rw [f64Neg_eq, f64Val_eq h]
  refine ⟨this.1, this.2.trans ?_⟩
  cases f64Sign b <;> simp

/-- Magnitude bits are ordered as the values are. -/
theorem magVal_strictMono : StrictMono magVal := by
  apply strictMono_nat_of_lt_succ
  intro g
  obtain ⟨j, n, hg, hn, hj, hm⟩ := magVal_decompose g
  rw [hm, hg, show j * 2 ^ 52 + n + 1 = j * 2 ^ 52 + (n + 1) by ring, magVal_units (by omega) (by omega)]
  have : (0 : ℚ) < 2 ^ (j - 1074 : ℤ) := by positivity
  push_cast
  linarith

/-- Two finite patterns of one value other than 0 are the same pattern. -/
theorem f64Val_inj {a b : F64} (ha : f64Finite a = true) (hb : f64Finite b = true) (h : f64Val a = f64Val b)
    (h0 : f64Val a ≠ 0) : a = b := by
  rw [← packF64_sign_mag a, ← packF64_sign_mag b]
  rw [h] at h0
  rw [f64Val_eq hb] at h0
  rw [f64Val_eq ha, f64Val_eq hb] at h
  have na := magVal_nonneg (f64Mag a)
  have nb := magVal_nonneg (f64Mag b)
  cases hs : f64Sign a <;> cases ht : f64Sign b <;> simp [hs, ht] at h h0
  · rw [magVal_strictMono.injective h]
  · exact absurd (by linarith) h0
  · exact absurd (by linarith) h0
  · rw [magVal_strictMono.injective h]

/-- A finite value is below the bound of overflow. -/
theorem f64Val_lt_overflow {c : F64} (hc : f64Finite c = true) : |f64Val c| < overflowBound := by
  have h := (f64Finite_iff c).1 hc
  have habs : |(if f64Sign c then (-1 : ℚ) else 1) * magVal (f64Mag c)| = magVal (f64Mag c) := by
    rw [abs_mul, abs_of_nonneg (magVal_nonneg _)]
    cases f64Sign c <;> simp
  rw [f64Val_eq hc, habs, overflowBound_eq]
  obtain ⟨j, n, hg, hn, hj, hm⟩ := magVal_decompose (f64Mag c)
  have hj2 : j ≤ 2045 := by
    rw [hg] at h
    norm_num [infMag] at h
    omega
  rw [hm]
  have a : (2 : ℚ) ^ (j - 1074 : ℤ) ≤ 2 ^ (971 : ℤ) := zpow_le_zpow_right₀ (by norm_num) (by omega)
  have b : (n : ℚ) ≤ 2 ^ 53 - 1 := by
    have : (n : ℚ) + 1 ≤ 2 ^ 53 := by exact_mod_cast (by omega : n + 1 ≤ 2 ^ 53)
    linarith
  have e : (2 : ℚ) ^ (971 : ℤ) = 2 * 2 ^ (970 : ℤ) := by
    rw [show (971 : ℤ) = 1 + 970 by norm_num, zpow_add₀ (by norm_num), zpow_one]
  have p : (0 : ℚ) < 2 ^ (970 : ℤ) := by positivity
  calc (n : ℚ) * 2 ^ (j - 1074 : ℤ) ≤ (2 ^ 53 - 1) * 2 ^ (971 : ℤ) := mul_le_mul b a (by positivity) (by norm_num)
    _ < _ := by
      rw [e]
      revert p
      generalize (2 : ℚ) ^ (970 : ℤ) = P
      intro p
      linarith

/-- Every integer of less than 53 bits times a power of two in range is the value of some pattern. -/
theorem exists_f64Val (z : Int) (e : Int) (hz : z.natAbs < 2 ^ 53) (h1 : -1074 ≤ e) (h2 : e ≤ 971) :
    ∃ c, f64Finite c = true ∧ f64Val c = z * 2 ^ e := by
  have mags : ∀ (k n : Nat), n < 2 ^ 53 → k ≤ 2045 → ∃ g, g < infMag ∧ magVal g = n * 2 ^ (k - 1074 : ℤ) := by
    intro k
    induction k with
    | zero =>
      intro n hn _
      refine ⟨n, by norm_num [infMag]; omega, ?_⟩
      simpa using magVal_units (j := 0) hn.le (.inl rfl)
    | succ k ih =>
      intro n hn hk
      by_cases h : 2 ^ 52 ≤ n
      · exact ⟨(k + 1) * 2 ^ 52 + n, by norm_num [infMag]; omega, magVal_units hn.le (.inr h)⟩
      · obtain ⟨g, hg, hv⟩ := ih (2 * n) (by omega) (by omega)
        refine ⟨g, hg, ?_⟩
        rw [hv, show ((k + 1 : ℕ) - 1074 : ℤ) = (k - 1074 : ℤ) + 1 by push_cast; ring, zpow_add₀ (by norm_num)]
        push_cast
        ring
  obtain ⟨g, hg, hv⟩ := mags (e + 1074).toNat z.natAbs hz (by omega)
  rw [show (((e + 1074).toNat : ℤ) - 1074) = e by omega, Nat.cast_natAbs, Int.cast_abs] at hv
  have := f64Val_pack (decide (z < 0)) hg
  refine ⟨_, this.1, ?_⟩
  rw [this.2, hv]
  by_cases h : z < 0
  · have : (z : ℚ) < 0 := by exact_mod_cast h
    simp [h, abs_of_neg this]
  · have : (0 : ℚ) ≤ z := by exact_mod_cast not_lt.1 h
    simp [h, abs_of_nonneg this]

end Values

section Rounded

variable {x : ℚ} {r c : F64}

theorem IsRounded.finite (h : IsRounded x r) (hx : |x| < overflowBound) : f64Finite r = true := by
  rcases h with ⟨hov, -⟩ | ⟨-, h, -⟩
  · exact absurd hx (not_lt.2 hov)
  · exact h

/-- A value does not round past a pattern above it. -/
theorem IsRounded.le (h : IsRounded x r) (hr : f64Finite r = true) (hc : f64Finite c = true)
    (hx : x ≤ f64Val c) : f64Val r ≤ f64Val c := by
  rcases h with ⟨-, rfl⟩ | ⟨-, -, hn, -⟩
  · rw [f64Finite_iff, f64Mag_pack _ (by norm_num [infMag])] at hr
    exact absurd hr (lt_irrefl _)
  · by_contra hlt
    have := hn c hc
    rw [abs_of_nonneg (by linarith), abs_of_nonneg (by linarith)] at this
    linarith

/-- A value does not round past a pattern below it. -/
theorem IsRounded.ge (h : IsRounded x r) (hr : f64Finite r = true) (hc : f64Finite c = true)
    (hx : f64Val c ≤ x) : f64Val c ≤ f64Val r := by
  rcases h with ⟨-, rfl⟩ | ⟨-, -, hn, -⟩
  · rw [f64Finite_iff, f64Mag_pack _ (by norm_num [infMag])] at hr
    exact absurd hr (lt_irrefl _)
  · by_contra hlt
    have := hn c hc
    rw [abs_of_nonpos (by linarith), abs_of_nonpos (by linarith)] at this
    linarith

/-- A value that some pattern has is not changed by rounding. -/
theorem IsRounded.exact (h : IsRounded x r) (hc : f64Finite c = true) (hx : f64Val c = x) :
    f64Finite r = true ∧ f64Val r = x := by
  have hf := h.finite (hx ▸ f64Val_lt_overflow hc)
  exact ⟨hf, le_antisymm (hx ▸ h.le hf hc hx.ge) (hx ▸ h.ge hf hc hx.le)⟩

end Rounded

section ExactResults

/-- The integer that `f64Add` rounds is the exact sum. -/
theorem exactSum_value (s : Bool) (m : Nat) (e : Int) (t : Bool) (n : Nat) (g : Int) :
    ((exactSum s m e t n g : Int) : ℚ) * 2 ^ (min e g) =
      (if s then -1 else 1) * m * 2 ^ e + (if t then -1 else 1) * n * 2 ^ g := by
  have signed : ∀ (s : Bool) (m : Nat), ((signedInt s m : Int) : ℚ) = (if s then -1 else 1) * m := by
    intro s m
    cases s <;> simp [signedInt]
  have a : ∀ x : Int, min e g ≤ x → (2 : ℚ) ^ (x - min e g).toNat * 2 ^ (min e g) = 2 ^ x := by
    intro x hx
    rw [← zpow_natCast, ← zpow_add₀ (by norm_num)]
    congr 1
    omega
  unfold exactSum
  push_cast
  rw [signed, signed, add_mul]
  push_cast
  rw [← a e (min_le_left _ _), ← a g (min_le_right _ _)]
  ring

/-- `roundF64` on a signed integer of units. -/
theorem roundF64_int_isRounded (z : Int) (q : Int) :
    IsRounded (z * 2 ^ q) (roundF64 (decide (z < 0)) z.natAbs q) := by
  have := roundF64_isRounded (decide (z < 0)) z.natAbs q
  have e : ((if (decide (z < 0)) = true then (-1 : ℚ) else 1) * (z.natAbs * 2 ^ q)) = z * 2 ^ q := by
    rw [Nat.cast_natAbs, Int.cast_abs]
    by_cases h : z < 0
    · have : (z : ℚ) < 0 := by exact_mod_cast h
      simp [h, abs_of_neg this]
    · have : (0 : ℚ) ≤ z := by exact_mod_cast not_lt.1 h
      simp [h, abs_of_nonneg this]
  rwa [e] at this

/-- The sticky quotient has the units of the exact quotient: its last bit, set when a remainder is left, is
at least six places below the last place kept. -/
theorem stickyQuotient_units {m n : Nat} (hm : m ≠ 0) (hn : n ≠ 0) (hn53 : n < 2 ^ 53) (e : Int) :
    ∃ j k, Units ((m : ℚ) / n * 2 ^ (e + 111)) j k ∧
      roundMag (stickyQuotient m n) e = min (j * 2 ^ 52 + k) infMag := by
  have hst : stickyQuotient m n = 2 * (m * 2 ^ 110 / n) + (if m * 2 ^ 110 % n = 0 then 0 else 1) := by
    rw [stickyQuotient]
  obtain ⟨T, hT, hT2, hT3⟩ : ∃ T : ℕ, T = 2 ^ 110 ∧ 2 ^ 57 * 2 ^ 53 = T ∧ (2 : ℚ) ^ (111 : ℤ) = 2 * T := by
    refine ⟨2 ^ 110, rfl, by rw [← pow_add], ?_⟩
    rw [show (111 : ℤ) = 1 + (110 : ℕ) by norm_num, zpow_add₀ (by norm_num), zpow_natCast, zpow_one, Nat.cast_pow]
    rfl
  rw [← hT] at hst
  set Q := m * T / n with hQ
  set R := m * T % n with hR
  have hQbig : 2 ^ 57 ≤ Q := by
    rw [hQ, Nat.le_div_iff_mul_le (by omega)]
    calc 2 ^ 57 * n ≤ 2 ^ 57 * 2 ^ 53 := Nat.mul_le_mul_left _ hn53.le
      _ = T := hT2
      _ ≤ m * T := Nat.le_mul_of_pos_left _ (by omega)
  set S := stickyQuotient m n with hS
  have hS0 : S ≠ 0 := by omega
  have u := units_of_unitsAt hS0 e
  refine ⟨_, _, ?_, by rw [roundMag, if_neg hS0]⟩
  set q := lastPlace S e with hq
  have hq1 : (S.log2 : Int) + e - 52 ≤ q := le_max_left _ _
  have hlog : 58 ≤ S.log2 := by
    rw [Nat.le_log2 hS0]
    omega
  have hqj : (((q + 1074).toNat : ℤ) - 1074) = q := by
    have : -1074 ≤ q := le_max_right _ _
    omega
  set k := unitsAt S e q with hk
  have hnQ : (0 : ℚ) < n := by exact_mod_cast Nat.pos_of_ne_zero hn
  have hx : (m : ℚ) / n * 2 ^ (e + 111) = (2 * (Q + (R : ℚ) / n)) * 2 ^ e := by
    have : (m : ℚ) * T = n * Q + R := by exact_mod_cast (Nat.div_add_mod (m * T) n).symm
    rw [zpow_add₀ (by norm_num), hT3]
    field_simp
    linear_combination this
  have hrho1 : (R : ℚ) / n < 1 := by
    rw [div_lt_one hnQ]
    exact_mod_cast Nat.mod_lt _ (by omega)
  obtain ⟨l, hl⟩ : ∃ l : ℕ, q = e + (l + 6) := ⟨(q - e - 6).toNat, by omega⟩
  set D : ℚ := 2 ^ (l + 6) with hD
  have hDpos : 0 < D := by positivity
  have hqD : (2 : ℚ) ^ q = D * 2 ^ e := by
    rw [hl, zpow_add₀ (by norm_num), mul_comm, hD]
    congr 1
  have scale : ∀ X : ℚ, X * 2 ^ e / 2 ^ q = X / D := by
    intro X
    rw [hqD]
    field_simp
  have hnear := u.near
  have hlow := u.low
  have hhigh := u.high
  rw [hqj, scale] at hnear hlow hhigh
  have hSQ : (S : ℚ) = 2 * Q + (if R = 0 then 0 else 1) := by rw [hst]; push_cast; rfl
  obtain ⟨d, hd⟩ : ∃ d : ℕ, D = 4 * d := ⟨2 ^ (l + 4), by rw [hD]; push_cast; ring⟩
  have hab : |(k : ℚ) * D - S| ≤ D / 2 := by
    have : (k : ℚ) * D - S = (k - S / D) * D := by field_simp
    rw [this, abs_mul, abs_of_pos hDpos]
    nlinarith
  by_cases hR0 : R = 0
  · have : (2 * (Q + (R : ℚ) / n)) = S := by rw [hSQ, hR0]; simp
    rw [hx, this]
    exact u
  · have hr : 0 < (R : ℚ) / n := by
      have : 0 < R := by omega
      positivity
    rw [if_neg hR0] at hSQ
    have habs := abs_le.1 hab
    rw [hSQ, hd] at habs
    have j1 : (-(2 * (d : ℚ))) + 1 ≤ 4 * k * d - (2 * Q + 1) := by
      have i : -(2 * (d : ℤ)) ≤ 4 * k * d - (2 * Q + 1) := by
        have : (-(2 * (d : ℚ))) ≤ 4 * k * d - (2 * Q + 1) := by linarith [habs.1]
        exact_mod_cast this
      have : (4 * k * d : ℤ) = 2 * (2 * (k * d)) := by ring
      exact_mod_cast (by omega : -(2 * (d : ℤ)) + 1 ≤ 4 * k * d - (2 * Q + 1))
    have j2 : 4 * k * d - (2 * Q + 1) ≤ (2 * (d : ℚ)) - 1 := by
      have i : 4 * k * d - (2 * Q + 1) ≤ (2 * (d : ℤ)) := by
        have : 4 * k * d - (2 * Q + 1) ≤ (2 * (d : ℚ)) := by linarith [habs.2]
        exact_mod_cast this
      have : (4 * k * d : ℤ) = 2 * (2 * (k * d)) := by ring
      exact_mod_cast (by omega : 4 * k * d - (2 * Q + 1) ≤ (2 * (d : ℤ)) - 1)
    have strict : |(k : ℚ) - (2 * (Q + (R : ℚ) / n)) / D| < 1 / 2 := by
      have e1 : (k : ℚ) - (2 * (Q + (R : ℚ) / n)) / D = (k * D - 2 * (Q + (R : ℚ) / n)) / D := by field_simp
      rw [e1, abs_div, abs_of_pos hDpos, div_lt_iff₀ hDpos, abs_lt, hd]
      constructor <;> linarith
    refine ⟨?_, ?_, ?_, ?_⟩
    · rw [hqj, hx, scale]
      exact strict.le
    · rw [hqj, hx, scale]
      exact fun h => absurd h strict.ne
    · rw [hqj, hx, scale]
      refine hlow.imp id fun h => ?_
      rw [le_div_iff₀ hDpos, hSQ, hd] at h
      rw [le_div_iff₀ hDpos, hd]
      have h : 2 ^ 52 * (4 * d) ≤ 2 * Q + 1 := by exact_mod_cast h
      have : (2 : ℚ) ^ 52 * (4 * d) ≤ 2 * Q := by exact_mod_cast (by omega : 2 ^ 52 * (4 * d) ≤ 2 * Q)
      linarith
    · rw [hqj, hx, scale]
      rw [div_lt_iff₀ hDpos, hSQ, hd] at hhigh
      rw [div_lt_iff₀ hDpos, hd]
      have h : 2 * Q + 1 < 2 ^ 53 * (4 * d) := by exact_mod_cast hhigh
      have : (2 : ℚ) * Q + 2 ≤ 2 ^ 53 * (4 * d) := by exact_mod_cast (by omega : 2 * Q + 2 ≤ 2 ^ 53 * (4 * d))
      linarith

end ExactResults

end Sys2Proof.Machine
end

