-- ==== Sys2Proof/Laws/Step.lean ====
section
/-! SUPPORT. All that an instruction and a step can do: one inversion lemma each. -/

namespace Sys2Proof.Machine

section Exec

/-- The next state of an instruction, when it has one. -/
def ExecResult (i : Instr) (s t : State) : Prop :=
  match i with
  | .nop => t = s
  | .drst => t = s.freshDither
  | .eclr => t = s.clearErrors
  | .byp8 b => t = s.setOut b
  | .q16 imm => t = s.setOut (clampbyte (roundHalfUp (sampleValue imm)))
  | .q16d imm => ∃ p s1, drawNoise s = some (p, s1) ∧
      t = ditherWrite (ditherInput imm s) (ditherResult (ditherInput imm s) p) s1
  | .xcvt imm => t = s.setFres (convertExt imm s.xhi s.xlo)
  | .rd slot => t = s.giveHost (busRead slot s)
  | .wrXhi d => t = s.setXhi d
  | .wrXlo d => t = s.setXlo d
  | .wrBad slot _ => ∃ c, slot.access.writeError = some c ∧ t = s.raise c

/-- All that `exec` can do when it answers a next state. -/
theorem exec_next {i : Instr} {s t : State} (h : exec i s = .next t) : ExecResult i s t := by
  cases i with
  | q16d imm =>
    simp only [exec, execQ16d] at h
    split at h
    · cases h
    · cases h
      exact ⟨_, _, ‹_›, rfl⟩
  | wrBad slot d =>
    simp only [exec, execWrBad] at h
    split at h
    · cases h
      exact ⟨_, ‹_›, rfl⟩
    · cases h
  | _ => cases h; rfl

/-- No instruction faults. -/
theorem exec_ne_fault (i : Instr) (s : State) (f : Fault) : exec i s ≠ .fault f := by
  cases i with
  | q16d imm => simp only [exec, execQ16d]; split <;> simp
  | wrBad slot d => simp only [exec, execWrBad]; split <;> simp
  | _ => exact fun h => nomatch h

/-- A well-formed instruction is refused only for its noise. -/
theorem exec_refused {i : Instr} {s : State} {r : Refusal} (hi : i.wellFormed = true)
    (h : exec i s = .refused r) : r = .noiseOutOfRange ∧ ∃ imm, i = .q16d imm ∧ drawNoise s = none := by
  cases i with
  | q16d imm =>
    simp only [exec, execQ16d] at h
    split at h
    · cases h
      exact ⟨rfl, imm, rfl, ‹_›⟩
    · cases h
  | wrBad slot d =>
    simp only [exec, execWrBad] at h
    split at h
    · cases h
    · rename_i hn
      simp [Instr.wellFormed, hn] at hi
  | _ => nomatch h

end Exec

section Step

theorem step_idle {s : State} (h : s.inputs = []) : step s = .fault .noInput := by
  simp only [step, h]

theorem step_reset {s : State} {p : Option TPattern} {rest : List HostInput} (h : s.inputs = .reset p :: rest) :
    step s = .next (resetBlock p (s.withInputs rest)) := by
  simp only [step, h]

theorem step_ok {s : State} {tp : TPattern} {rest : List HostInput} {i : Instr}
    (h : s.inputs = .bus tp :: rest) (hd : decode tp = .ok i) : step s = exec i (s.withInputs rest) := by
  simp only [step, h, hd]

theorem step_error {s : State} {tp : TPattern} {rest : List HostInput} {c : ErrCause}
    (h : s.inputs = .bus tp :: rest) (hd : decode tp = .error c) :
    step s = .next ((s.withInputs rest).raise c) := by
  simp only [step, h, hd, rejectCommand]

/-- All that `step` can do when it answers a next state. -/
theorem step_next {s t : State} (h : step s = .next t) :
    (∃ p rest, s.inputs = .reset p :: rest ∧ t = resetBlock p (s.withInputs rest)) ∨
    (∃ tp rest i, s.inputs = .bus tp :: rest ∧ decode tp = .ok i ∧ ExecResult i (s.withInputs rest) t) ∨
    (∃ tp rest c, s.inputs = .bus tp :: rest ∧ decode tp = .error c ∧ t = (s.withInputs rest).raise c) := by
  cases hi : s.inputs with
  | nil => rw [step_idle hi] at h; cases h
  | cons x rest =>
    cases x with
    | reset p =>
      rw [step_reset hi] at h
      cases h
      exact .inl ⟨p, rest, rfl, rfl⟩
    | bus tp =>
      cases hd : decode tp with
      | ok i =>
        rw [step_ok hi hd] at h
        exact .inr (.inl ⟨tp, rest, i, rfl, hd, exec_next h⟩)
      | error c =>
        rw [step_error hi hd] at h
        cases h
        exact .inr (.inr ⟨tp, rest, c, rfl, hd, rfl⟩)

/-- Only command words are rejected, and only for a cause of ILL (30_encoding.md R61). -/
theorem decode_error {tp : TPattern} {c : ErrCause} (h : decode tp = .error c) : causeIsIll c = true := by
  unfold decode at h
  split at h
  · unfold decodeWrite at h
    split at h
    · unfold decodeCommand at h
      split at h
      · cases h; rfl
      · split at h
        · cases h; rfl
        · split at h
          · cases h; rfl
          · cases h
    all_goals cases h
  · cases h

/-- Every decoded instruction is well formed, so `step` never refuses an ill-formed one. -/
theorem decode_wellFormed {tp : TPattern} {i : Instr} (h : decode tp = .ok i) : i.wellFormed = true := by
  unfold decode at h
  split at h
  · generalize Slot.ofAddr (fieldA tp) = slot at h
    cases slot
    case cmd =>
      cases i with
      | wrBad slot d =>
        simp only [decodeWrite, decodeCommand] at h
        rcases commandOf_cases (fieldOp (fieldD tp)) (fieldImm (fieldD tp)) with
          ⟨-, e⟩ | ⟨-, e⟩ | ⟨-, e⟩ | ⟨-, e⟩ | ⟨-, e⟩ | ⟨-, e⟩ | ⟨-, e⟩ | ⟨-, e⟩ <;>
        · rw [e] at h
          simp only at h
          (try split_ifs at h) <;> simp at h
      | _ => rfl
    all_goals cases h; rfl
  · cases h; rfl

end Step

end Sys2Proof.Machine
end

