-- ==== Sys2Proof/Tests/Slice0.lean ====
section
/-! SUPPORT. The model's own tests. Expected values are from spec/: the encodings of 30_encoding.md, the
vectors of 95_test_vectors.md (cited by their ids), and hand calculation from the rules. Then one theorem per
obligation with hypotheses, showing a state and operands that meet them. -/

namespace Sys2Proof.Tests

open Sys2Proof Sys2Proof.Machine Sys2Proof.Claims

/-- The state after one transaction, if there is one. -/
def after (t : TPattern) (s : State) : Option State :=
  match step (s.withInputs [.bus t]) with
  | .next u => some u
  | .fault _ => none
  | .refused _ => none

/-- A state after reset with some fields set. -/
def withErrors (out : Byte) (ill berr : Bool) (cause : BitVec 4) : State :=
  { State.reset with out := out, ill := ill, berr := berr, ecause := cause }

/-- The state after reset with mantissa words. -/
def withMantissa (hi lo : Word) : State := { State.reset with xhi := hi, xlo := lo }

/-- The state after reset with noise supplied. -/
def withNoise (u1 u2 : F64) : State := { State.reset with noise := [{ u1 := u1, u2 := u2 }] }

/-- The state after vector D-A step 1: one entry of the history, -0.5, at the current index. -/
def afterDA1 : State :=
  { State.reset with h := #v[0, 0xBFE0000000000000, 0, 0, 0, 0, 0, 0], idx := 1, out := 129,
                     noise := [{ u1 := 0, u2 := 0 }] }

/-- The state after reset with one transaction pending. -/
def pending (t : TPattern) : State := { State.reset with inputs := [.bus t] }

/-- A state in every field of which something stands, with reset pending. -/
def resetting : State :=
  { afterDA1 with xhi := 1, xlo := 2, fres := 3, ill := true, berr := true, ecause := 4,
                  inputs := [.reset (some 0x4012000000)] }

section WellFormed

theorem test_wellFormed_refuses_wrBad_cmd : (Instr.wrBad .cmd 0).wellFormed = false := by decide
theorem test_wellFormed_refuses_wrBad_xhi : (Instr.wrBad .xhi 5).wellFormed = false := by decide
theorem test_wellFormed_refuses_wrBad_xlo : (Instr.wrBad .xlo 5).wellFormed = false := by decide
theorem test_wellFormed_takes_wrBad_status : (Instr.wrBad .status 5).wellFormed = true := by decide
theorem test_illFormed_refused : exec (.wrBad .cmd 0) State.reset = .refused .illFormed := rfl

end WellFormed

section Decoding

/-! Words written out field by field: `W`, `A`, then `OP`, `RSV`, `IMM` or `D` (R55 to R59). -/

theorem test_decode_nop : decode (0b1#1 ++ 0b000000#6 ++ 0b00000000#8 ++ 0b00000000#8 ++ 0#16) = .ok .nop := by decide
theorem test_decode_drst : decode (0b1#1 ++ 0b000000#6 ++ 0b00000001#8 ++ 0b00000000#8 ++ 0#16) = .ok .drst := by decide
theorem test_decode_eclr : decode (0b1#1 ++ 0b000000#6 ++ 0b00000010#8 ++ 0b00000000#8 ++ 0#16) = .ok .eclr := by decide
theorem test_decode_byp8 :
    decode (0b1#1 ++ 0b000000#6 ++ 0b00010000#8 ++ 0b00000000#8 ++ 0b00000000#8 ++ 0b11001000#8) =
      .ok (.byp8 200) := by decide
theorem test_decode_q16 :
    decode (0b1#1 ++ 0b000000#6 ++ 0b00010001#8 ++ 0b00000000#8 ++ 0b1111111100000000#16) =
      .ok (.q16 (BitVec.ofInt 16 (-256))) := by decide
theorem test_decode_q16d :
    decode (0b1#1 ++ 0b000000#6 ++ 0b00010010#8 ++ 0b00000000#8 ++ 0b1000000000000000#16) =
      .ok (.q16d (BitVec.ofInt 16 (-32768))) := by decide
theorem test_decode_xcvt :
    decode (0b1#1 ++ 0b000000#6 ++ 0b00100000#8 ++ 0b00000000#8 ++ 0b0100000000001110#16) =
      .ok (.xcvt 0x400E) := by decide
theorem test_decode_rd : decode (0b0#1 ++ 0b000001#6 ++ 0xFFFFFFFF#32) = .ok (.rd .status) := by decide
theorem test_decode_rd_hh7 : decode (0b0#1 ++ 0b011111#6 ++ 0#32) = .ok (.rd (.hh 7)) := by decide
theorem test_decode_wrXhi : decode (0b1#1 ++ 0b000010#6 ++ 0xAC440000#32) = .ok (.wrXhi 0xAC440000) := by decide
theorem test_decode_wrXlo : decode (0b1#1 ++ 0b000011#6 ++ 0x00000400#32) = .ok (.wrXlo 0x400) := by decide
theorem test_decode_wrBad : decode (0b1#1 ++ 0b010000#6 ++ 0x12345678#32) = .ok (.wrBad (.hl 0) 0x12345678) := by
  decide

/-! Vectors E1, E3, E4, E5, E6, E7: the checks and their order. -/

theorem test_decode_E1 : decode 0x4003000000 = .error .illOpcode := by decide
theorem test_decode_E3 : decode 0x4013FF0001 = .error .illOpcode := by decide
theorem test_decode_E4 : decode 0x4011010000 = .error .illRsvd := by decide
theorem test_decode_E5 : decode 0x401001FF00 = .error .illRsvd := by decide
theorem test_decode_E6 : decode 0x4010000100 = .error .illOperand := by decide
theorem test_decode_E7 : decode 0x402000FFFF = .ok (.xcvt 0xFFFF) := by decide

/-! The host's numbering: a command row of 32 bits, a bus row of 39 bits in 40. -/

theorem test_table_q16 : decodeTableWord 32 0x1100FF00 = some (.q16 0xFF00) := by decide
theorem test_table_wrXhi : decodeTableWord 40 0x4200000005 = some (.wrXhi 5) := by decide
theorem test_table_rd : decodeTableWord 40 0x0000000000 = some (.rd .cmd) := by decide
theorem test_table_illegal : decodeTableWord 32 0x03000000 = none := by decide
theorem test_table_too_wide : decodeTableWord 40 0x8000000000 = none := by decide
theorem test_withFetchWord :
    step (State.reset.withFetchWord 32 0x100000C8) = .next { State.reset with out := 200 } := rfl

/-! Lines of the programs of 95_test_vectors.md, a comment, a pseudo-instruction, and lines that do not assemble. -/

theorem test_text_line : assembleText "WR XLO, #0x00000400 ; P1".toList = some [0x4300000400] := by decide
theorem test_text_blank : assembleText "  ; nothing".toList = some [] := by decide
theorem test_text_rd_number : assembleText "RD 40".toList = some [0x2800000000] := by decide
theorem test_text_hh7 : assembleText "WR HH7, #0".toList = some [0x5F00000000] := by decide
theorem test_text_xld80 :
    assembleText "XLD80 #400EAC44000000000000".toList = some [0x42AC440000, 0x4300000000, 0x402000400E] := by decide
theorem test_text_put16 : assembleText "PUT16 #-256".toList = some [0x401100FF00, 0x0100000000] := by decide
theorem test_text_out_of_range : assembleText "BYP8 #256".toList = none := by decide
theorem test_text_wr_cmd : assembleText "WR CMD, #0x13000000".toList = some [0x4013000000] := by decide
theorem test_text_no_slot : assembleText "RD 64".toList = none := by decide

end Decoding

section Vectors

/-- K1. -/
theorem test_nop_K1 : after 0x4000000000 State.reset = some State.reset := by decide
/-- K4. -/
theorem test_nop_K4 : (after 0x4000000001 State.reset).map statusWord = some 0x00310000 := by decide
/-- K2, with one entry of the history. -/
theorem test_drst_K2 :
    (after 0x4001000000 afterDA1).map (fun t => (t.h, statusWord t)) = some (State.reset.h, 0x00000081) := by decide
/-- K6. -/
theorem test_drst_K6 :
    (after 0x4001010000 afterDA1).map (fun t => (t.h, statusWord t)) = some (afterDA1.h, 0x00210181) := by decide
/-- K3. -/
theorem test_eclr_K3 : (after 0x4002000000 (withErrors 0x81 true true 4)).map statusWord = some 0x00000081 := by
  decide
/-- K5. -/
theorem test_eclr_K5 : (after 0x4002000001 (withErrors 0x81 true true 4)).map statusWord = some 0x00430081 := by
  decide
/-- Y3. -/
theorem test_byp8_Y3 : (after 0x40100000C8 State.reset).map statusWord = some 0x000000C8 := by decide
/-- Q5, a tie. -/
theorem test_q16_Q5 : (after 0x401100FF80 State.reset).map (·.out) = some 128 := by decide +kernel
/-- Q12, the clamp. -/
theorem test_q16_Q12 : (after 0x4011007F80 State.reset).map (·.out) = some 255 := by decide +kernel
/-- D-C1, the lower clamp and its whole error fed back. -/
theorem test_q16d_DC1 :
    (after 0x4012008000 (withNoise 0xBFE0000000000000 0xBFE0000000000000)).map
      (fun t => (t.hist 1, t.idx, t.out)) = some (0x3FF0000000000000, 1, 0) := by decide +kernel
/-- D-A step 2, the feedback of the error written by step 1. -/
theorem test_q16d_DA2 :
    (after 0x4012000080 afterDA1).map (fun t => (t.hist 2, t.hist 1, t.idx, t.out)) =
      some (0x3FDEF1A9FBE76D00, 0xBFE0000000000000, 2, 127) := by decide +kernel
/-- X1, 44100 Hz. -/
theorem test_xcvt_X1 : (after 0x402000400E (withMantissa 0xAC440000 0)).map (·.fres) = some 0x40E5888000000000 := by
  decide +kernel
/-- X27, the double rounding. -/
theorem test_xcvt_X27 :
    (after 0x4020003BEB (withMantissa 0x80000001 0xFFFFFFFF)).map (·.fres) = some 0x0000000040000000 := by
  decide +kernel
/-- P1's reads of an XCVT result: the high word stands at the higher address. -/
theorem test_rd_fresh :
    (after 0x0500000000 { State.reset with fres := 0x40E5888000000000 }).map (·.returned) = some [0x40E58880] := by
  decide
/-- E14. -/
theorem test_rd_E14 : (after 0x2800000000 afterDA1).map (·.returned) = some [0] := by decide
/-- R28: the word replaces the contents. -/
theorem test_wrXhi : (after 0x42AC440000 State.reset).map (fun t => (t.xhi, t.xlo)) = some (0xAC440000, 0) := by decide
/-- R29. -/
theorem test_wrXlo : (after 0x4300000400 State.reset).map (fun t => (t.xhi, t.xlo)) = some (0, 0x400) := by decide
/-- E10. -/
theorem test_wrBad_E10 : (after 0x5F00000000 State.reset).map statusWord = some 0x00420000 := by decide
/-- E12, after E1: the first cause stays. -/
theorem test_wrBad_E12 : (after 0x7F00000001 (withErrors 0 true false 1)).map statusWord = some 0x00130000 := by decide

end Vectors

section Witnesses

/-- A finite pattern and its value. -/
theorem two : f64Finite 0x4000000000000000 = true ∧ f64Val 0x4000000000000000 = 2 := by
  have := f64Val_of_fin (c := 0x4000000000000000) (s := false) (m := 2 ^ 52) (e := -51) (by decide)
  exact ⟨this.1, by rw [this.2]; norm_num⟩

/-- Its negation. -/
theorem minus_two : f64Finite 0xC000000000000000 = true ∧ f64Val 0xC000000000000000 = -2 := by
  have := f64Val_of_fin (c := 0xC000000000000000) (s := true) (m := 2 ^ 52) (e := -51) (by decide)
  exact ⟨this.1, by rw [this.2]; norm_num⟩

theorem witness_DecodeOfEncodeIsTheInstruction : (Instr.q16d 0x8000).wellFormed = true := by decide

theorem witness_EncodeOfDecodeIsThePattern :
    (decode 0x4012008000 = .ok (.q16d 0x8000) ∧ fieldW 0x4012008000 = true) ∧
    (decode 0x3F00000001 = .ok (.rd (.reservedHigh 31)) ∧ fieldW 0x3F00000001 = false) := by decide

/-- An unknown opcode beside 0x02, 0x10 and 0x20, a reserved bit, and operands at the ends of their ranges. -/
theorem witness_CommandWordsRunInCheckOrder :
    (pending 0x4003000000).inputs = .bus (tWrite 0 0x03000000) :: [] ∧
    (0x03000000#32).toNat / 2 ^ 24 ∉ [0x00, 0x01, 0x02, 0x10, 0x11, 0x12, 0x20] ∧
    (0x0F000000#32).toNat / 2 ^ 24 ∉ [0x00, 0x01, 0x02, 0x10, 0x11, 0x12, 0x20] ∧
    (0x21000000#32).toNat / 2 ^ 24 ∉ [0x00, 0x01, 0x02, 0x10, 0x11, 0x12, 0x20] ∧
    (0x11010000#32).toNat / 2 ^ 24 ∈ [0x00, 0x01, 0x02, 0x10, 0x11, 0x12, 0x20] ∧
    (0x11010000#32).toNat / 2 ^ 16 % 2 ^ 8 ≠ 0 ∧
    badOperand 0x02 1 ∧ badOperand 0x10 0x0100 ∧ ¬ badOperand 0x10 0x00FF ∧ ¬ badOperand 0x20 0xFFFF ∧
    ¬ badOperand 0x00 0 := by
  refine ⟨by decide, by decide, by decide, by decide, by decide, by decide, ?_⟩
  simp [badOperand]

/-- Every address case at both ends; no address falls under two of them. -/
theorem witness_BusWriteFollowsTheAddressCases :
    (pending 0x5F00000000).inputs = .bus (tWrite 31 0) :: [] ∧
    (∀ a : BitVec 6,
      (if a.toNat = 0 then 1 else 0) + (if a.toNat = 2 then 1 else 0) + (if a.toNat = 3 then 1 else 0) +
      (if a.toNat ∈ [1, 4, 5] ∨ (16 ≤ a.toNat ∧ a.toNat ≤ 31) then 1 else 0) +
      (if (6 ≤ a.toNat ∧ a.toNat ≤ 15) ∨ 32 ≤ a.toNat then 1 else 0) = 1) := by decide

theorem witness_BusReadFollowsTheAddressCases :
    (pending 0x1F12345678).inputs = .bus 0x1F12345678 :: [] ∧ fieldW 0x1F12345678 = false ∧
    (fieldA 0x1F12345678).toNat = 31 ∧ (fieldA 0x1000000000).toNat = 16 ∧ (fieldA 0x0F00000000).toNat = 15 ∧
    (fieldA 0x2000000000).toNat = 32 := by decide

theorem witness_ReadBackDeterminesTheBlock :
    ∀ slot, busRead slot (withNoise 0 0) = busRead slot State.reset := fun slot => by cases slot <;> rfl

theorem witness_WritesOfOtherSlotsRaiseBerr :
    (Slot.hh 7).access = .readOnly ∧ Slot.status.access = .readOnly ∧ (Slot.reservedLow 0).access = .reserved ∧
    (Slot.reservedHigh 31).access = .reserved := by decide

theorem witness_StepRunsTheDecodedInstruction :
    (pending 0x40100000C8).inputs = .bus 0x40100000C8 :: [] ∧ decode 0x40100000C8 = .ok (.byp8 200) := by decide

theorem witness_Resets : Resets resetting ∧ ∃ t, step resetting = .next t := ⟨⟨_, _, rfl⟩, _, rfl⟩

theorem witness_StepFaultsExactlyWhenIdle : State.reset.inputs = [] ∧ step State.reset = .fault .noInput := ⟨rfl, rfl⟩

theorem witness_EveryPendingInputCompletes :
    (pending 0x4012000000).NoiseAdmissible ∧ (pending 0x4012000000).inputs ≠ [] := by decide

theorem witness_NoiseStaysAdmissible :
    State.NoiseAdmissible { withNoise 0x3FE0000000000000 0xBFE0000000000000 with inputs := [.bus 0x4000000000] } ∧
    ∃ t, step { withNoise 0x3FE0000000000000 0xBFE0000000000000 with inputs := [.bus 0x4000000000] } = .next t :=
  ⟨by decide, _, rfl⟩

theorem witness_ErrorReportStaysConsistent :
    State.ErrorConsistent { withErrors 0 true true 4 with inputs := [.bus 0x4003000000] } ∧
    ∃ t, step { withErrors 0 true true 4 with inputs := [.bus 0x4003000000] } = .next t :=
  ⟨⟨by decide, by decide, by decide, by decide⟩, _, rfl⟩

theorem witness_OnlyEclrAndResetClearErrors :
    let s := { withErrors 0 true true 4 with inputs := [.bus 0x4003000000] }
    (∃ t, step s = .next t) ∧ ¬ Resets s ∧ ¬ Performs s .eclr ∧ s.ill = true ∧ s.berr = true ∧ s.ecause ≠ 0 ∧
      ¬ s.errorFree := by
  refine ⟨⟨_, rfl⟩, ?_, ?_, by decide, by decide, by decide, by decide⟩
  · rintro ⟨p, rest, h⟩
    cases h
  · rintro ⟨t, rest, h, hd⟩
    cases h
    exact absurd hd (by decide)

theorem witness_ErrorsDoNotStopLaterCommands : exec (.byp8 200) State.reset = .next { State.reset with out := 200 } :=
  rfl

theorem witness_InstructionsChangeOnlyTheirSlots :
    (∃ t, exec (.wrXhi 5) State.reset = .next t) ∧ ¬ touches (.wrXhi 5) State.reset .xlo ∧
    ¬ touchesStatusBit (.byp8 5) 8 ∧ ¬ touchesStatusBit .eclr 19 ∧ ¬ touchesStatusBit (.q16d 5) 11 ∧
    (∀ slot, Instr.wrXhi 5 ≠ .rd slot) ∧ ∀ imm, Instr.wrXhi 5 ≠ .q16d imm := by
  simp [touches, touchesStatusBit, exec, execWrXhi]

theorem witness_OnlySampleCommandsWriteOut :
    ∃ t, step (pending 0x40100000C8) = .next t ∧ t.out ≠ (pending 0x40100000C8).out := ⟨_, rfl, by decide⟩

/-- For the statements about what Q16D, and what no other step, does to IDX, the history and the noise. -/
theorem witness_OnlyQ16D :
    ((∃ t, step (pending 0x4012000000) = .next t) ∧ ∃ imm, Performs (pending 0x4012000000) (.q16d imm)) ∧
    ((∃ t, step (pending 0x4001000000) = .next t) ∧ Performs (pending 0x4001000000) .drst) ∧
    ((∃ t, step (pending 0x4000000000) = .next t) ∧ ¬ (∃ imm, Performs (pending 0x4000000000) (.q16d imm)) ∧
      ¬ Performs (pending 0x4000000000) .drst ∧ ¬ Resets (pending 0x4000000000)) := by
  refine ⟨⟨⟨_, rfl⟩, 0, _, _, rfl, by decide⟩, ⟨⟨_, rfl⟩, _, _, rfl, by decide⟩, ⟨_, rfl⟩, ?_, ?_, ?_⟩
  · rintro ⟨imm, t, rest, h, hd⟩
    cases h
    rw [show decode 0x4000000000 = .ok .nop by decide] at hd
    cases hd
  · rintro ⟨t, rest, h, hd⟩
    cases h
    exact absurd hd (by decide)
  · rintro ⟨p, rest, h⟩
    cases h

theorem witness_OnlyBusWritesChangeMantissaWords :
    (∃ t, step (pending 0x4200000001) = .next t ∧ t.xhi ≠ (pending 0x4200000001).xhi) ∧
    ∃ t, step (pending 0x4300000001) = .next t ∧ t.xlo ≠ (pending 0x4300000001).xlo :=
  ⟨⟨_, rfl, by decide⟩, _, rfl, by decide⟩

theorem witness_OnlyXcvtWritesFres :
    ∃ t, step { withMantissa 0x80000000 0 with inputs := [.bus 0x4020003FFF] } = .next t ∧
      t.fres ≠ (withMantissa 0x80000000 0).fres := ⟨_, rfl, by decide +kernel⟩

theorem witness_Q16DWritesOutIndexAndError :
    (∀ p, (withNoise 0x3FE0000000000000 0).noise.head? = some p → p.inRange = true) ∧
    ∀ p, State.reset.noise.head? = some p → p.inRange = true := by
  constructor
  · intro p h
    cases h
    decide
  · intro p h
    cases h

theorem witness_OnlyBadNoiseAndIllFormedTermsAreRefused :
    (∃ imm p rest, Instr.q16d 5 = .q16d imm ∧ (withNoise 0x3FE0000000000001 0).noise = p :: rest ∧
      p.inRange = false) ∧
    (Instr.wrBad .xlo 5).wellFormed = false := ⟨⟨_, _, _, rfl, rfl, by decide⟩, by decide⟩

theorem witness_HistoryIsAShiftRegister :
    ∃ p s1 t, drawNoise afterDA1 = some (p, s1) ∧ exec (.q16d 128) afterDA1 = .next t := ⟨_, _, _, rfl, rfl⟩

theorem witness_Q16DIsTheFiveTapFilter :
    let samples : List (BitVec 16 × NoisePair) := [(128, { u1 := 0, u2 := 0 }), (0, { u1 := 0x3FE0000000000000, u2 := 0 })]
    let s := { State.reset with noise := samples.map Prod.snd ++ [] }
    (∀ x ∈ samples, x.2.inRange = true) ∧ s.noise = samples.map Prod.snd ++ [] ∧ ∀ i, s.hist i = 0 := by decide

theorem witness_FirstDitheredSampleIsNominal :
    (∀ i, (withNoise 0x3FD0000000000000 0xBFD0000000000000).hist i = 0) ∧
    (withNoise 0x3FD0000000000000 0xBFD0000000000000).noise =
      { u1 := 0x3FD0000000000000, u2 := 0xBFD0000000000000 } :: [] ∧
    NoisePair.inRange { u1 := 0x3FD0000000000000, u2 := 0xBFD0000000000000 } = true ∧
    f64Add 0x3FD0000000000000 0xBFD0000000000000 = 0 ∧
    f64Add 0x8000000000000000 0x8000000000000000 = 0x8000000000000000 := by decide +kernel

theorem witness_OtherSampleCommandsDoNotDisturbTheFilter :
    ∃ t u, exec (.xcvt 0x3FFF) afterDA1 = .next t ∧ exec (.q16d 128) t = .next u := ⟨_, _, rfl, rfl⟩

/-- The history after vector D-A step 1 is bounded. -/
theorem witness_HistoryBounded : afterDA1.HistoryBounded := by
  have h1 := f64Val_of_fin (c := 0xBFE0000000000000) (s := true) (m := 2 ^ 52) (e := -53) (by decide)
  intro i
  have hi : afterDA1.hist i = if i = 1 then 0xBFE0000000000000 else 0 := by revert i; decide
  rw [hi]
  split
  · refine ⟨h1.1, ?_⟩
    rw [h1.2]
    norm_num [abs_of_neg, abs_of_pos]
  · refine ⟨by decide, ?_⟩
    rw [f64Val_zero]
    norm_num

theorem witness_HistoryStaysBounded :
    State.HistoryBounded { afterDA1 with inputs := [.bus 0x4012000080] } ∧
    ∃ t, step { afterDA1 with inputs := [.bus 0x4012000080] } = .next t :=
  ⟨fun i => witness_HistoryBounded i, _, rfl⟩

theorem witness_DitherPathStaysFinite :
    afterDA1.HistoryBounded ∧ NoisePair.inRange { u1 := 0x3FE0000000000000, u2 := 0xBFE0000000000000 } = true :=
  ⟨witness_HistoryBounded, by decide⟩

theorem witness_AddAndSubRoundToNearestEven :
    f64Finite 0x4000000000000000 = true ∧ f64Finite 0xC000000000000000 = true ∧
    f64Val 0x4000000000000000 + f64Val 0xC000000000000000 = 0 ∧
    f64Sign 0x4000000000000000 ≠ f64Sign 0xC000000000000000 := by
  refine ⟨two.1, minus_two.1, ?_, by decide⟩
  rw [two.2, minus_two.2]
  norm_num

theorem witness_MulRoundsToNearestEven :
    f64Finite 0x4000000000000000 = true ∧ f64Finite 0xC000000000000000 = true := ⟨two.1, minus_two.1⟩

theorem witness_DivRoundsToNearestEven :
    f64Finite 0x4000000000000000 = true ∧ f64Finite 0xC000000000000000 = true ∧ f64Val 0xC000000000000000 ≠ 0 := by
  refine ⟨two.1, minus_two.1, ?_⟩
  rw [minus_two.2]
  norm_num

theorem witness_ScaleRoundsAndIntegersAreExact : 0xFFFFFFFF < 2 ^ 32 ∧ (-(2 ^ 53 - 1) : Int).natAbs < 2 ^ 53 := by decide

theorem witness_FloorIsExact : f64Finite 0x8000000000000001 = true ∧ f64Finite maxFinite = true := by decide

theorem witness_ClampbyteSaturates :
    (f64Finite 0x4000000000000000 = true ∧ f64Val 0x4000000000000000 = (2 : Int)) ∧
    (f64Finite 0xC000000000000000 = true ∧ f64Val 0xC000000000000000 = (-2 : Int)) ∧
    f64Exp 0x7FF8000000000000 = 0x7FF ∧ f64Frac 0x7FF8000000000000 ≠ 0 := by
  refine ⟨⟨two.1, ?_⟩, ⟨minus_two.1, ?_⟩, by decide, by decide⟩
  · rw [two.2]
    norm_num
  · rw [minus_two.2]
    norm_num

theorem witness_XcvtOfNegativeExponentIsZero :
    (0x8000#16).getLsbD 15 = true ∧ (0xFFFF#16).getLsbD 15 = true := by decide

/-- The three clauses: the stated range of exponents, a product of 2^1024 or more below it, and a sum of finite
parts that rounds up (vector X20's exponent with a mantissa word hi that stays finite). -/
theorem witness_XcvtOverflowsToInfinity :
    ((0x43FF#16).toInt ≠ 32767 ∧ 17407 ≤ (0x43FF#16).toInt ∧ 2 ^ 31 ≤ (0x80000000#32).toNat) ∧
    ((0x7FFE#16).toInt ≠ 32767 ∧ (2 : ℚ) ^ 1024 ≤ (1#32).toNat * 2 ^ ((0x7FFE#16).toInt - 16414)) ∧
    ((0x43FE#16).toInt ≠ 32767 ∧ f64Finite (scaledHi 0x43FE 0xFFFFFFFF) = true ∧
      f64Finite (scaledLo 0x43FE 0xFFFFFFFF) = true ∧
      overflowBound ≤ f64Val (scaledHi 0x43FE 0xFFFFFFFF) + f64Val (scaledLo 0x43FE 0xFFFFFFFF)) := by
  have hi : scaledHi 0x43FE 0xFFFFFFFF = 0x7FEFFFFFFFE00000 := by decide +kernel
  have lo : scaledLo 0x43FE 0xFFFFFFFF = 0x7DEFFFFFFFE00000 := by decide +kernel
  have vh := f64Val_of_fin (c := 0x7FEFFFFFFFE00000) (s := false) (m := 0x1FFFFFFFE00000) (e := 971) (by decide)
  have vl := f64Val_of_fin (c := 0x7DEFFFFFFFE00000) (s := false) (m := 0x1FFFFFFFE00000) (e := 939) (by decide)
  refine ⟨by decide, ⟨by decide, ?_⟩, by decide, hi ▸ vh.1, lo ▸ vl.1, ?_⟩
  · rw [show (0x7FFE#16).toInt - 16414 = ((16352 : ℕ) : ℤ) by decide, zpow_natCast]
    rw [show (((1#32).toNat : ℕ) : ℚ) = 1 by norm_num, one_mul]
    exact pow_le_pow_right₀ (by norm_num) (by norm_num)
  · rw [hi, lo, vh.2, vl.2, overflowBound_eq, show (970 : ℤ) = 31 + 939 by norm_num,
      show (971 : ℤ) = 32 + 939 by norm_num, zpow_add₀ (by norm_num), zpow_add₀ (by norm_num)]
    have : (0 : ℚ) < 2 ^ (939 : ℤ) := by positivity
    revert this
    generalize (2 : ℚ) ^ (939 : ℤ) = p
    intro hp
    norm_num
    nlinarith

/-- 44100 Hz with the last bit of lo set, both words normal. -/
theorem witness_XcvtIsCorrectlyRounded :
    (0x400E#16).toInt ≠ 32767 ∧
    (2 : ℚ) ^ (-1022 : ℤ) ≤ (((0xAC440000#32).toNat * 2 ^ 32 + (1#32).toNat : ℕ) : ℚ) * 2 ^ ((0x400E#16).toInt - 16446) ∧
    (f64Mag (scaledHi 0x400E 0xAC440000) = 0 ∨ 2 ^ 52 ≤ f64Mag (scaledHi 0x400E 0xAC440000)) ∧
    (f64Mag (scaledLo 0x400E 1) = 0 ∨ 2 ^ 52 ≤ f64Mag (scaledLo 0x400E 1)) := by
  refine ⟨by decide, ?_, by decide +kernel, by decide +kernel⟩
  have h : (0x400E#16).toInt - 16446 = -48 := by decide
  have hm : (1 : ℚ) ≤ (((0xAC440000#32).toNat * 2 ^ 32 + (1#32).toNat : ℕ) : ℚ) := by norm_num
  rw [h]
  calc (2 : ℚ) ^ (-1022 : ℤ) ≤ 2 ^ (-48 : ℤ) := zpow_le_zpow_right₀ (by norm_num) (by norm_num)
    _ ≤ _ := le_mul_of_one_le_left (by positivity) hm

/-- A mantissa word lo of exactly 2^-1075, which rounds to zero, beside a normal hi. -/
theorem witness_XcvtIsCorrectlyRounded_lo_rounds_to_zero :
    (0x3C0B#16).toInt ≠ 32767 ∧
    (2 : ℚ) ^ (-1022 : ℤ) ≤ (((0xFFFFFFFF#32).toNat * 2 ^ 32 + (1#32).toNat : ℕ) : ℚ) * 2 ^ ((0x3C0B#16).toInt - 16446) ∧
    2 ^ 52 ≤ f64Mag (scaledHi 0x3C0B 0xFFFFFFFF) ∧ f64Mag (scaledLo 0x3C0B 1) = 0 := by
  refine ⟨by decide, ?_, by decide +kernel, by decide +kernel⟩
  have h : (0x3C0B#16).toInt - 16446 = -1075 := by decide
  have hm : (2 : ℚ) ^ (53 : ℤ) ≤ (((0xFFFFFFFF#32).toNat * 2 ^ 32 + (1#32).toNat : ℕ) : ℚ) := by norm_num
  rw [h, show (-1022 : ℤ) = 53 + -1075 by norm_num, zpow_add₀ (by norm_num)]
  exact mul_le_mul_of_nonneg_right hm (by positivity)

/-- The ends of the immediate ranges, and the values next to them; the slots that refuse writes, at the ends of
their addresses. -/
theorem witness_AssembledLinesDecode :
    Slot.status.access.writeError.isSome = true ∧ (Slot.reservedHigh 31).access.writeError.isSome = true ∧
    (assemble (.wr .status 0xFFFFFFFF)).isSome ∧ (assemble (.wr (.reservedHigh 31) 0)).isSome ∧
    assemble (.wr .cmd 0x10000100) = some 0x4010000100 ∧ assemble (.wr .cmd (-1)) = none ∧
    (assemble (.wr .xhi 0xFFFFFFFF)).isSome ∧ assemble (.wr .xhi 0x100000000) = none ∧
    (assemble (.byp8 255)).isSome ∧ assemble (.byp8 256) = none ∧ assemble (.byp8 (-1)) = none ∧
    (assemble (.q16 (-32768))).isSome ∧ assemble (.q16d 32768) = none ∧
    (assemble (.xcvt 0xFFFF)).isSome ∧ (assemble (.xcvt (-32768))).isSome ∧ assemble (.xcvt 0x10000) = none := by decide

/-- The ten bytes of 44100 Hz (program P1) and the transactions they become. -/
theorem witness_LoadingTenBytesConvertsThem :
    (Pseudo.xld80 #v[0x40, 0x0E, 0xAC, 0x44, 0, 0, 0, 0, 0, 0]).expand.map assemble =
      [some 0x42AC440000, some 0x4300000000, some 0x402000400E] ∧
    State.inputs { State.reset with inputs := [.bus 0x42AC440000, .bus 0x4300000000, .bus 0x402000400E] } =
      [.bus 0x42AC440000, .bus 0x4300000000, .bus 0x402000400E] ++ [] := by decide

end Witnesses

end Sys2Proof.Tests
end

/-! ## One step: what it performs, when it faults, and the noise it consumes (R11, R12) -/

section
namespace Sys2Proof.Machine

open Sys2Proof.Claims

section StepFacts

variable {s t : State} {i : Instr}

/-- A step faults for one reason only: nothing is pending. -/
theorem step_eq_fault_iff (s : State) (f : Fault) : step s = .fault f ↔ s.inputs = [] := by
  constructor
  · intro h
    cases hin : s.inputs with
    | nil => rfl
    | cons x rest =>
      cases x with
      | reset p => rw [step_reset hin] at h; cases h
      | bus tp =>
        cases hd : decode tp with
        | ok i => rw [step_ok hin hd] at h; exact absurd h (exec_ne_fault i _ f)
        | error c => rw [step_error hin hd] at h; cases h
  · intro h
    cases f
    exact step_idle h

/-- The next state of a step that performs an instruction is that instruction's. -/
theorem execResult_of_performs (hp : Performs s i) (h : step s = .next t) :
    ExecResult i (s.withInputs s.inputs.tail) t := by
  obtain ⟨tp, rest, hin, hd⟩ := hp
  rw [step_ok hin hd] at h
  simpa [hin] using exec_next h

/-- Q16D takes the first supplied pair and counts one draw (R12). -/
theorem ExecResult.noise_q16d {imm : BitVec 16} (h : ExecResult (.q16d imm) s t) :
    t.noise = s.noise.tail ∧ t.drawn = s.drawn + 1 := by
  obtain ⟨p, s1, hdraw, rfl⟩ := h
  obtain ⟨-, rfl, -⟩ := drawNoise_some hdraw
  exact ⟨rfl, rfl⟩

/-- An instruction other than Q16D leaves the noise alone. -/
theorem ExecResult.noise_of_ne_q16d (h : ExecResult i s t) (hi : ∀ imm, i ≠ .q16d imm) :
    t.noise = s.noise ∧ t.drawn = s.drawn := by
  cases i with
  | q16d imm => exact absurd rfl (hi imm)
  | wrBad slot d =>
    obtain ⟨c, -, rfl⟩ := h
    exact ⟨rfl, rfl⟩
  | _ => cases h; exact ⟨rfl, rfl⟩

/-- A step that performs Q16D consumes one pair. -/
theorem step_noise_of_q16d {imm : BitVec 16} (h : step s = .next t) (hp : Performs s (.q16d imm)) :
    t.noise = s.noise.tail ∧ t.drawn = s.drawn + 1 := (execResult_of_performs hp h).noise_q16d

/-- Every other step, reset and the report of an illegal command included, consumes none. -/
theorem step_noise_of_not_q16d (h : step s = .next t) (hp : ¬ ∃ imm, Performs s (.q16d imm)) :
    t.noise = s.noise ∧ t.drawn = s.drawn := by
  obtain ⟨p, rest, -, rfl⟩ | ⟨tp, rest, i, hin, hd, hres⟩ | ⟨tp, rest, c, -, -, rfl⟩ := step_next h
  · exact ⟨rfl, rfl⟩
  · refine hres.noise_of_ne_q16d ?_
    rintro imm rfl
    exact hp ⟨imm, tp, rest, hin, hd⟩
  · exact ⟨rfl, rfl⟩

/-- No step adds a noise pair. -/
theorem step_noise_subset (h : step s = .next t) : t.noise ⊆ s.noise := by
  by_cases hp : ∃ imm, Performs s (.q16d imm)
  · obtain ⟨imm, hp⟩ := hp
    rw [(step_noise_of_q16d h hp).1]
    exact List.tail_subset _
  · rw [(step_noise_of_not_q16d h hp).1]
    exact List.Subset.refl _

end StepFacts

/-- Settles O12: the decoded instruction is executed on the state with the input taken. -/
theorem stepRunsTheDecodedInstruction : Obligations.StepRunsTheDecodedInstruction :=
  fun _ _ _ _ hin hd => step_ok hin hd

/-- Settles O16: a transaction or a reset never ends in a fault. -/
theorem stepFaultsExactlyWhenIdle : Obligations.StepFaultsExactlyWhenIdle := step_eq_fault_iff

/-- Settles O28: the step that performs Q16D against every other. -/
theorem onlyQ16DConsumesNoise : Obligations.OnlyQ16DConsumesNoise :=
  fun _ _ h => ⟨fun ⟨_, hp⟩ => step_noise_of_q16d h hp, step_noise_of_not_q16d h⟩

/-- Settles O18: a step only ever takes pairs away. -/
theorem noiseStaysAdmissible : Obligations.NoiseStaysAdmissible :=
  fun _ _ hs h p hp => hs p (step_noise_subset h hp)

end Sys2Proof.Machine
end

/-! ## Arithmetic: the operations of 00_scope.md R7 against the rationals -/

section
namespace Sys2Proof.Machine

section SignedValues

variable {a : F64} {s : Bool} {m : Nat} {e : Int}

theorem signedInt_cast (neg : Bool) (m : Nat) : ((signedInt neg m : Int) : ℚ) = (if neg then -1 else 1) * m := by
  cases neg <;> simp [signedInt]

/-- The sign of a product is the exclusive or of the signs. -/
theorem signedInt_mul (s t : Bool) (m n : Nat) :
    signedInt (s != t) (m * n) = signedInt s m * signedInt t n := by
  cases s <;> cases t <;> simp [signedInt]

/-- The value of a finite pattern as a signed number of units. -/
theorem f64Val_eq_signedInt (h : FVal.ofBits a = .fin s m e) : f64Val a = signedInt s m * 2 ^ e := by
  rw [(f64Val_of_fin h).2, signedInt_cast]

/-- `roundF64` rounds the signed number of units. -/
theorem roundF64_isRounded_signedInt (neg : Bool) (m : Nat) (e : Int) :
    IsRounded (signedInt neg m * 2 ^ e) (roundF64 neg m e) := by
  rw [signedInt_cast, mul_assoc]
  exact roundF64_isRounded neg m e

/-- An integer of less than 53 bits is not changed by rounding. -/
theorem roundF64_of_integer (neg : Bool) (hm : m < 2 ^ 53) :
    f64Finite (roundF64 neg m 0) = true ∧ f64Val (roundF64 neg m 0) = signedInt neg m := by
  have hz : (signedInt neg m).natAbs < 2 ^ 53 := by cases neg <;> simpa [signedInt] using hm
  obtain ⟨c, hc, hv⟩ := exists_f64Val (signedInt neg m) 0 hz (by norm_num) (by norm_num)
  simpa using (roundF64_isRounded_signedInt neg m 0).exact hc hv

end SignedValues

section AddSub

variable {a b : F64}

theorem f64Add_of_fin {s t : Bool} {m n : Nat} {e g : Int} (ha : FVal.ofBits a = .fin s m e)
    (hb : FVal.ofBits b = .fin t n g) :
    f64Add a b = if exactSum s m e t n g = 0 then packF64 (s && t) 0
      else roundF64 (decide (exactSum s m e t n g < 0)) (exactSum s m e t n g).natAbs (min e g) := by
  simp only [f64Add, ha, hb]

/-- What `f64Add` rounds is the sum of the two values. -/
theorem exactSum_eq_add {s t : Bool} {m n : Nat} {e g : Int} (ha : FVal.ofBits a = .fin s m e)
    (hb : FVal.ofBits b = .fin t n g) : (exactSum s m e t n g : ℚ) * 2 ^ min e g = f64Val a + f64Val b := by
  rw [exactSum_value, (f64Val_of_fin ha).2, (f64Val_of_fin hb).2]

theorem f64Add_isRounded (ha : f64Finite a = true) (hb : f64Finite b = true) :
    IsRounded (f64Val a + f64Val b) (f64Add a b) := by
  obtain ⟨s, m, e, ha, -⟩ := ofBits_fin ha
  obtain ⟨t, n, g, hb, -⟩ := ofBits_fin hb
  rw [f64Add_of_fin ha hb, ← exactSum_eq_add ha hb]
  split
  next h => simpa [h] using isRounded_zero (s && t)
  next => exact roundF64_int_isRounded _ _

theorem f64Sub_isRounded (ha : f64Finite a = true) (hb : f64Finite b = true) :
    IsRounded (f64Val a - f64Val b) (f64Sub a b) := by
  obtain ⟨hneg, hval⟩ := f64Val_neg hb
  rw [sub_eq_add_neg, ← hval]
  exact f64Add_isRounded ha hneg

/-- A zero sum of operands of opposite sign is +0.0. -/
theorem f64Add_eq_zero (ha : f64Finite a = true) (hb : f64Finite b = true) (h : f64Val a + f64Val b = 0)
    (hsign : f64Sign a ≠ f64Sign b) : f64Add a b = 0 := by
  obtain ⟨s, m, e, ha, rfl, -⟩ := ofBits_fin ha
  obtain ⟨t, n, g, hb, rfl, -⟩ := ofBits_fin hb
  have hsum : exactSum (f64Sign a) m e (f64Sign b) n g = 0 := by
    rw [← exactSum_eq_add ha hb] at h
    exact_mod_cast (mul_eq_zero.1 h).resolve_right (by positivity)
  have hand : (f64Sign a && f64Sign b) = false := by
    rw [Bool.eq_not.2 hsign, Bool.not_and_self]
  rw [f64Add_of_fin ha hb, if_pos hsum, hand]
  rfl

@[simp] theorem f64Sign_neg (a : F64) : f64Sign (f64Neg a) = !f64Sign a := by
  rw [f64Neg_eq, f64Sign_pack _ (f64Mag_lt a)]

theorem f64Sub_self (ha : f64Finite a = true) : f64Sub a a = 0 := by
  obtain ⟨hneg, hval⟩ := f64Val_neg ha
  exact f64Add_eq_zero ha hneg (by rw [hval, add_neg_cancel]) (by simp)

end AddSub

section MulDiv

variable {a b : F64}

theorem f64Mul_isRounded (ha : f64Finite a = true) (hb : f64Finite b = true) :
    IsRounded (f64Val a * f64Val b) (f64Mul a b) := by
  obtain ⟨s, m, e, ha, -⟩ := ofBits_fin ha
  obtain ⟨t, n, g, hb, -⟩ := ofBits_fin hb
  have hmul : f64Mul a b = roundF64 (s != t) (m * n) (e + g) := by simp only [f64Mul, ha, hb]
  have hval : f64Val a * f64Val b = signedInt (s != t) (m * n) * 2 ^ (e + g) := by
    rw [f64Val_eq_signedInt ha, f64Val_eq_signedInt hb, signedInt_mul, zpow_add₀ two_ne_zero]
    push_cast
    ring
  rw [hmul, hval]
  exact roundF64_isRounded_signedInt _ _ _

/-- The quotient kept with a sticky bit rounds as the exact one does. -/
theorem roundF64_stickyQuotient_isRounded (neg : Bool) {m n : Nat} (hn : n ≠ 0) (hn53 : n < 2 ^ 53) (e : Int) :
    IsRounded ((if neg then -1 else 1) * ((m : ℚ) / n * 2 ^ (e + 111))) (roundF64 neg (stickyQuotient m n) e) := by
  rcases eq_or_ne m 0 with rfl | hm
  · simpa [stickyQuotient, roundF64, roundMag] using isRounded_zero neg
  · obtain ⟨j, k, hunits, hmag⟩ := stickyQuotient_units hm hn hn53 e
    rw [roundF64, hmag]
    exact isRounded_of_units neg (by positivity) hunits

/-- The sign of a quotient is the exclusive or of the signs. -/
theorem sign_bne_div (s t : Bool) :
    (if (s != t) = true then (-1 : ℚ) else 1) = (if s = true then -1 else 1) / (if t = true then -1 else 1) := by
  cases s <;> cases t <;> norm_num

theorem f64Div_isRounded (ha : f64Finite a = true) (hb : f64Finite b = true) (h0 : f64Val b ≠ 0) :
    IsRounded (f64Val a / f64Val b) (f64Div a b) := by
  obtain ⟨s, m, e, ha, -⟩ := ofBits_fin ha
  obtain ⟨t, n, g, hb, -, hn53, -⟩ := ofBits_fin hb
  have hn : n ≠ 0 := by
    rintro rfl
    exact h0 (by simp [(f64Val_of_fin hb).2])
  have hdiv : f64Div a b = roundF64 (s != t) (stickyQuotient m n) (e - g - 111) := by
    simp only [f64Div, ha, hb, if_neg hn]
  have hval : f64Val a / f64Val b =
      (if (s != t) = true then -1 else 1) * ((m : ℚ) / n * 2 ^ (e - g - 111 + 111)) := by
    rw [(f64Val_of_fin ha).2, (f64Val_of_fin hb).2, mul_div_mul_comm, mul_div_mul_comm, ← sign_bne_div,
      sub_add_cancel, zpow_sub₀ two_ne_zero, mul_assoc]
  rw [hdiv, hval]
  exact roundF64_stickyQuotient_isRounded _ hn hn53 _

end MulDiv

section ScaleAndIntegers

theorem scale64_isRounded (m : Nat) (e : Int) : IsRounded (m * 2 ^ e) (scale64 m e) := by
  simpa [scale64] using roundF64_isRounded false m e

/-- An integer is its sign and its magnitude. -/
theorem signedInt_natAbs (n : Int) : signedInt (decide (n < 0)) n.natAbs = n := by
  unfold signedInt
  simp only [decide_eq_true_eq]
  split <;> omega

theorem i2f_exact {n : Int} (hn : n.natAbs < 2 ^ 53) : f64Finite (i2f n) = true ∧ f64Val (i2f n) = n := by
  simpa only [i2f, signedInt_natAbs] using roundF64_of_integer (decide (n < 0)) hn

end ScaleAndIntegers

section Floor

/-- The number of whole units at or below a signed number of parts, as `floor64` computes it. -/
theorem signedInt_floorDiv (neg : Bool) (m : Nat) {u : Nat} (hu : 0 < u) :
    signedInt neg (if neg then (m + (u - 1)) / u else m / u) = signedInt neg m / (u : Int) := by
  cases neg with
  | false => simp [signedInt]
  | true =>
    have hdiv := Nat.div_add_mod (m + (u - 1)) u
    have hmod := Nat.mod_lt (m + (u - 1)) hu
    have hdiv' : (u : Int) * ((m + (u - 1)) / u : ℕ) + ((m + (u - 1)) % u : ℕ) = (m + (u - 1) : ℕ) := by
      exact_mod_cast hdiv
    have hunique := (Int.ediv_emod_unique (a := -(m : Int)) (b := u) (q := -((m + (u - 1)) / u : ℕ))
      (r := (u - 1 : ℕ) - ((m + (u - 1)) % u : ℕ)) (by omega)).2
      ⟨by rw [mul_neg]; omega, by omega, by omega⟩
    exact hunique.1.symm

/-- `floor64` never has more units than its operand has parts. -/
theorem floorDiv_le (neg : Bool) (m : Nat) {u : Nat} (hu : 0 < u) :
    (if neg then (m + (u - 1)) / u else m / u) ≤ m := by
  cases neg with
  | false => exact Nat.div_le_self m u
  | true =>
    refine (Nat.div_le_iff_le_mul_add_pred hu).2 ?_
    exact Nat.add_le_add_right (Nat.le_mul_of_pos_left m hu) _

/-- The floor of a value with `k` fractional bits. -/
theorem floor_signedInt (neg : Bool) (m k : Nat) :
    ⌊(signedInt neg m : ℚ) * 2 ^ (-(k : ℤ))⌋ = signedInt neg m / ((2 ^ k : ℕ) : Int) := by
  rw [zpow_neg, zpow_natCast, ← div_eq_mul_inv, ← Rat.floor_intCast_div_natCast]
  push_cast
  rfl

/-- A value with no fractional bits is an integer. -/
theorem intCast_mul_zpow (z : Int) {e : Int} (he : 0 ≤ e) : (z : ℚ) * 2 ^ e = (z * 2 ^ e.toNat : ℤ) := by
  obtain ⟨k, rfl⟩ := Int.eq_ofNat_of_zero_le he
  simp

/-- The whole part of a value, as `clampbyte` computes it. -/
theorem floor_natCast_zpow (m : Nat) (e : Int) :
    ⌊(m : ℚ) * 2 ^ e⌋ = (if 0 ≤ e then m * 2 ^ e.toNat else m / 2 ^ (-e).toNat : ℕ) := by
  split
  next he =>
    have hint := intCast_mul_zpow m he
    rw [Int.cast_natCast] at hint
    rw [hint, Int.floor_intCast]
    push_cast
    rfl
  next he =>
    have hfloor := floor_signedInt false m (-e).toNat
    rwa [Int.toNat_of_nonneg (by omega), neg_neg] at hfloor

theorem floor64_exact {x : F64} (hx : f64Finite x = true) :
    f64Finite (floor64 x) = true ∧ f64Val (floor64 x) = ⌊f64Val x⌋ := by
  obtain ⟨neg, m, e, hx', -, hm, -⟩ := ofBits_fin hx
  rcases le_or_gt 0 e with he | he
  · have hself : floor64 x = x := by simp only [floor64, hx', if_pos he]
    rw [hself]
    refine ⟨hx, ?_⟩
    rw [f64Val_eq_signedInt hx', intCast_mul_zpow _ he, Int.floor_intCast]
  · obtain ⟨k, rfl⟩ : ∃ k : ℕ, e = -(k : ℤ) := ⟨(-e).toNat, by omega⟩
    have hu : 0 < 2 ^ k := by positivity
    have hfloor : floor64 x = roundF64 neg (if neg then (m + (2 ^ k - 1)) / 2 ^ k else m / 2 ^ k) 0 := by
      simp only [floor64, hx', if_neg (not_le.2 he), neg_neg, Int.toNat_natCast]
    rw [hfloor, f64Val_eq_signedInt hx', floor_signedInt, ← signedInt_floorDiv neg m hu]
    exact roundF64_of_integer neg ((floorDiv_le neg m hu).trans_lt hm)

end Floor

section Clamp

theorem clampbyte_of_integer {r : F64} {n : Int} (hr : f64Finite r = true) (hn : f64Val r = n) :
    clampbyte r = BitVec.ofNat 8 (min 255 n.toNat) := by
  obtain ⟨neg, m, e, hr', -⟩ := ofBits_fin hr
  rw [f64Val_eq_signedInt hr'] at hn
  cases neg with
  | true =>
    have hnonneg : (0 : ℚ) ≤ m * 2 ^ e := by positivity
    have hn' : (n : ℚ) = -(m * 2 ^ e) := by simp [← hn, signedInt]
    have hle : n ≤ 0 := by exact_mod_cast hn' ▸ neg_nonpos.2 hnonneg
    simp [clampbyte, hr', Int.toNat_of_nonpos hle]
  | false =>
    have hwhole : n = (if 0 ≤ e then m * 2 ^ e.toNat else m / 2 ^ (-e).toNat : ℕ) := by
      rw [← floor_natCast_zpow, ← Int.floor_intCast (R := ℚ) n, ← hn]
      simp [signedInt]
    rw [hwhole, Int.toNat_natCast]
    simp [clampbyte, hr']

theorem clampbyte_of_nan {r : F64} (hexp : f64Exp r = 0x7FF) (hfrac : f64Frac r ≠ 0) : clampbyte r = 0 := by
  simp only [clampbyte, FVal.ofBits, if_pos hexp, if_neg hfrac]

end Clamp

section Literals

/-- The magnitude bits of a normal pattern in units of its last place. -/
theorem f64Mag_of_normal {b : F64} {neg : Bool} {m : Nat} {e : Int} (h : FVal.ofBits b = .fin neg m e)
    (hm : 2 ^ 52 ≤ m) : f64Mag b = (e + 1074).toNat * 2 ^ 52 + m := by
  have hfrac := f64Frac_lt b
  rw [f64Mag_eq]
  unfold FVal.ofBits at h
  split_ifs at h
  · cases h
    omega
  · cases h
    omega

/-- A value less than half a last place away from a normal pattern rounds to that pattern. -/
theorem isRounded_of_near_normal {x : ℚ} {b : F64} {neg : Bool} {m : Nat} {e : Int}
    (hb : FVal.ofBits b = .fin neg m e) (hlow : 2 ^ 52 < m)
    (hnear : |m - (if neg then -1 else 1) * x / 2 ^ e| < 1 / 2) : IsRounded x b := by
  have hfin := (f64Val_of_fin hb).1
  obtain ⟨neg', m', e', hb', hsign, hhigh, he, -⟩ := ofBits_fin hfin
  obtain ⟨rfl, rfl, rfl⟩ := FVal.fin.inj (hb'.symm.trans hb)
  have hmag := f64Mag_of_normal hb hlow.le
  have hexp : (((e' + 1074).toNat : ℤ) - 1074) = e' := by omega
  have hlow' : (2 ^ 52 : ℚ) + 1 ≤ m' := by exact_mod_cast hlow
  have hhigh' : (m' : ℚ) + 1 ≤ 2 ^ 53 := by exact_mod_cast hhigh
  obtain ⟨hleft, hright⟩ := abs_lt.1 hnear
  set y : ℚ := (if neg' then -1 else 1) * x with hy
  have hunits : Units y (e' + 1074).toNat m' := by
    constructor <;> rw [hexp]
    · exact hnear.le
    · exact fun h => absurd h hnear.ne
    · exact .inr (by linarith)
    · linarith
  have hpos : 0 < y := (div_pos_iff_of_pos_right (b := (2 : ℚ) ^ e') (by positivity)).1 (by linarith)
  have hx : x = (if neg' then -1 else 1) * y := by rw [hy]; cases neg' <;> simp
  have hround := isRounded_of_units neg' hpos.le hunits
  rwa [← hx, ← hmag, min_eq_left ((f64Finite_iff b).1 hfin).le, hsign, packF64_sign_mag] at hround

end Literals

/-- Settles O44: the sum of the operands as an integer of units, rounded once; `a - b` is `a + (-b)`. -/
theorem addAndSubRoundToNearestEven : Obligations.AddAndSubRoundToNearestEven :=
  fun _ _ ha hb => ⟨f64Add_isRounded ha hb, f64Sub_isRounded ha hb, f64Add_eq_zero ha hb, f64Sub_self ha⟩

/-- Settles O45: the product of the operands' integers, rounded once. -/
theorem mulRoundsToNearestEven : Obligations.MulRoundsToNearestEven := fun _ _ => f64Mul_isRounded

/-- Settles O46: the sticky bit keeps the quotient on its side of every tie. -/
theorem divRoundsToNearestEven : Obligations.DivRoundsToNearestEven := fun _ _ => f64Div_isRounded

/-- Settles O47: one rounding, which an integer below 2^53 does not need. -/
theorem scaleRoundsAndIntegersAreExact : Obligations.ScaleRoundsAndIntegersAreExact :=
  ⟨fun m e _ => scale64_isRounded m e, fun _ => i2f_exact⟩

/-- Settles O48: the whole units fit 53 bits, so that writing them as a pattern rounds nothing. -/
theorem floorIsExact : Obligations.FloorIsExact :=
  ⟨fun _ => floor64_exact, by decide +kernel, by decide +kernel, by decide +kernel⟩

/-- Settles O49: by the sign of the value, and the whole part of a positive one. -/
theorem clampbyteSaturates : Obligations.ClampbyteSaturates :=
  ⟨fun _ _ => clampbyte_of_integer, fun _ => clampbyte_of_nan, by decide, by decide⟩

/-- Settles O50: the sum rounds up to 1.0 before the floor is taken. -/
theorem roundAddsBeforeTheFloor : Obligations.RoundAddsBeforeTheFloor := ⟨fun _ => rfl, by decide +kernel⟩

/-- Settles O51: each pattern is normal, and its literal lies less than half a last place from it. -/
theorem weightsAreTheNearestValues : Obligations.WeightsAreTheNearestValues := by
  refine ⟨rfl, ?_, ?_, ?_, ?_, ?_⟩
  · exact isRounded_of_near_normal (neg := false) (m := 0x104395810624DD) (e := -51) (by decide) (by decide)
      (by norm_num [abs_lt])
  · exact isRounded_of_near_normal (neg := true) (m := 0x1151EB851EB852) (e := -51) (by decide) (by decide)
      (by norm_num [abs_lt])
  · exact isRounded_of_near_normal (neg := false) (m := 0x1F5810624DD2F2) (e := -52) (by decide) (by decide)
      (by norm_num [abs_lt])
  · exact isRounded_of_near_normal (neg := true) (m := 0x1970A3D70A3D71) (e := -52) (by decide) (by decide)
      (by norm_num [abs_lt])
  · exact isRounded_of_near_normal (neg := false) (m := 0x13AD42C3C9EECC) (e := -53) (by decide) (by decide)
      (by norm_num [abs_lt])

end Sys2Proof.Machine
end

/-! ## The error report: every step keeps ECAUSE and the sticky bits consistent (R25 to R27, R110, R111) -/

section
namespace Sys2Proof.Machine

open Sys2Proof.Claims

section PerformedStep

variable {s t : State}

/-- A step is a reset, the instruction it performs, or the report of an illegal command, each on the state with
its input taken. -/
theorem step_resets_or_performs_or_raises (h : step s = .next t) :
    (∃ p, Resets s ∧ t = resetBlock p (s.withInputs s.inputs.tail)) ∨
    (∃ i, Performs s i ∧ ExecResult i (s.withInputs s.inputs.tail) t) ∨
    ∃ c, t = (s.withInputs s.inputs.tail).raise c := by
  obtain ⟨p, rest, hin, rfl⟩ | ⟨tp, rest, i, hin, hd, hres⟩ | ⟨tp, rest, c, hin, -, rfl⟩ := step_next h
  · exact .inl ⟨p, ⟨p, rest, hin⟩, by rw [hin, List.tail_cons]⟩
  · exact .inr (.inl ⟨i, ⟨tp, rest, hin, hd⟩, by rwa [hin, List.tail_cons]⟩)
  · exact .inr (.inr ⟨c, by rw [hin, List.tail_cons]⟩)

/-- Q16D writes the result and the error of some noise pair of the range, and takes one pair (R96). -/
theorem ExecResult.eq_ditherWrite {imm : BitVec 16} (h : ExecResult (.q16d imm) s t) :
    ∃ p : NoisePair, p.inRange = true ∧ t = ditherWrite (ditherInput imm s) (ditherResult (ditherInput imm s) p)
      { s with noise := s.noise.tail, drawn := s.drawn + 1 } := by
  obtain ⟨p, s1, hdraw, rfl⟩ := h
  obtain ⟨hp, rfl, -⟩ := drawNoise_some hdraw
  exact ⟨p, hp, rfl⟩

end PerformedStep

section ErrorReport

variable {s t : State} {i : Instr}

/-- Consistency speaks of ILL, BERR and ECAUSE only. -/
theorem State.ErrorConsistent.congr (hs : s.ErrorConsistent) (hill : t.ill = s.ill) (hberr : t.berr = s.berr)
    (hcause : t.ecause = s.ecause) : t.ErrorConsistent where
  none_iff := by
    rw [State.errorFree, hill, hberr, hcause]
    exact hs.none_iff
  code_le := hcause ▸ hs.code_le
  ill_of_code := by
    rw [hill, hcause]
    exact hs.ill_of_code
  berr_of_code := by
    rw [hberr, hcause]
    exact hs.berr_of_code

/-- A state without an error report is consistent. -/
theorem errorConsistent_of_cleared (hill : s.ill = false) (hberr : s.berr = false) (hcause : s.ecause = 0) :
    s.ErrorConsistent where
  none_iff := iff_of_true hcause ⟨hill, hberr⟩
  code_le := by simp [hcause]
  ill_of_code := by simp [hcause]
  berr_of_code := by simp [hcause]

/-- The first error sets the sticky bit of the code it records; a later one sets a sticky bit and leaves ECAUSE
alone (R27, R111). -/
theorem State.ErrorConsistent.raise (hs : s.ErrorConsistent) (c : ErrCause) : (s.raise c).ErrorConsistent := by
  by_cases hfree : s.errorFree
  · have hcode : (s.raise c).ecause = causeCode c := raise_first c hfree
    constructor
    · refine iff_of_false ?_ (raise_not_errorFree s c)
      rw [hcode]
      cases c <;> decide
    · exact hcode ▸ (causeCode_range c).2
    · rw [hcode, raise_ill, ← causeIsIll_iff_code]
      exact fun _ hc => by rw [hc, Bool.or_true]
    · rw [hcode, raise_berr]
      cases c <;> simp [causeCode, causeIsIll]
  · have hcode : (s.raise c).ecause = s.ecause := raise_later c hfree
    constructor
    · exact iff_of_false (hcode ▸ mt hs.none_iff.1 hfree) (raise_not_errorFree s c)
    · exact hcode ▸ hs.code_le
    · rw [hcode, raise_ill]
      exact fun h1 h3 => by rw [hs.ill_of_code h1 h3, Bool.true_or]
    · rw [hcode, raise_berr]
      exact fun h4 => by rw [hs.berr_of_code h4, Bool.true_or]

/-- Every instruction keeps the error report consistent: ECLR clears it, a bad write adds to it, and no other
instruction touches it. -/
theorem ExecResult.errorConsistent (h : ExecResult i s t) (hs : s.ErrorConsistent) : t.ErrorConsistent := by
  cases i with
  | eclr =>
    cases h
    exact errorConsistent_of_cleared rfl rfl rfl
  | wrBad slot d =>
    obtain ⟨c, -, rfl⟩ := h
    exact hs.raise c
  | q16d imm =>
    obtain ⟨p, -, rfl⟩ := h.eq_ditherWrite
    exact hs.congr rfl rfl rfl
  | _ =>
    cases h
    exact hs.congr rfl rfl rfl

end ErrorReport

/-- Settles O19: reset clears the report, an illegal command adds to it, and an instruction keeps it consistent. -/
theorem errorReportStaysConsistent : Obligations.ErrorReportStaysConsistent := by
  intro s t hs h
  have hs' : (s.withInputs s.inputs.tail).ErrorConsistent := hs.congr rfl rfl rfl
  obtain ⟨p, -, rfl⟩ | ⟨i, -, hres⟩ | ⟨c, rfl⟩ := step_resets_or_performs_or_raises h
  · exact errorConsistent_of_cleared rfl rfl rfl
  · exact hres.errorConsistent hs'
  · exact hs'.raise c

end Sys2Proof.Machine
end

/-! ## IDX and the history: Q16D moves both by one entry, DRST and reset clear them (R24, R31, R36) -/

section
namespace Sys2Proof.Machine

open Sys2Proof.Claims

section Reset

variable {s t : State}

/-- A step of a pending reset resets the block. -/
theorem step_eq_resetBlock (hr : Resets s) (h : step s = .next t) :
    ∃ p, t = resetBlock p (s.withInputs s.inputs.tail) := by
  obtain ⟨p, rest, hin⟩ := hr
  rw [step_reset hin] at h
  cases h
  exact ⟨p, by rw [hin, List.tail_cons]⟩

end Reset

section DitherState

variable {s t : State} {i : Instr}

/-- Q16D moves IDX on and writes the error at the new IDX, for some noise pair of the range (R96, R100). -/
theorem ExecResult.dither_q16d {imm : BitVec 16} (h : ExecResult (.q16d imm) s t) :
    ∃ p : NoisePair, p.inRange = true ∧ t.idx = s.idx + 1 ∧
      ∀ j, t.hist j = if s.idx + 1 = j then f64Sub (ditherInput imm s) (ditherResult (ditherInput imm s) p)
        else s.hist j := by
  obtain ⟨p, hp, rfl⟩ := h.eq_ditherWrite
  exact ⟨p, hp, rfl, fun j => ditherWrite_hist _ _ _ j⟩

/-- Every instruction but Q16D and DRST leaves the dither state alone. -/
theorem ExecResult.dither_of_other (h : ExecResult i s t) (hq : ∀ imm, i ≠ .q16d imm) (hd : i ≠ .drst) :
    t.h = s.h ∧ t.idx = s.idx := by
  cases i with
  | q16d imm => exact absurd rfl (hq imm)
  | drst => exact absurd rfl hd
  | wrBad slot d =>
    obtain ⟨c, -, rfl⟩ := h
    exact ⟨rfl, rfl⟩
  | _ =>
    cases h
    exact ⟨rfl, rfl⟩

/-- A step that performs Q16D. -/
theorem step_dither_of_q16d {imm : BitVec 16} (h : step s = .next t) (hp : Performs s (.q16d imm)) :
    ∃ p : NoisePair, p.inRange = true ∧ t.idx = s.idx + 1 ∧
      ∀ j, t.hist j = if s.idx + 1 = j then f64Sub (ditherInput imm s) (ditherResult (ditherInput imm s) p)
        else s.hist j := (execResult_of_performs hp h).dither_q16d

/-- A step that performs DRST, and a reset, leave the fresh dither state. -/
theorem step_dither_of_fresh (h : step s = .next t) (hf : Performs s .drst ∨ Resets s) :
    t.idx = 0 ∧ ∀ j, t.hist j = 0 := by
  rcases hf with hp | hr
  · have ht : t = (s.withInputs s.inputs.tail).freshDither := execResult_of_performs hp h
    subst ht
    exact ⟨rfl, freshDither_hist _⟩
  · obtain ⟨p, rfl⟩ := step_eq_resetBlock hr h
    exact ⟨rfl, resetBlock_hist _ p⟩

/-- Every other step leaves the dither state alone. -/
theorem step_dither_of_other (h : step s = .next t) (hq : ¬ ∃ imm, Performs s (.q16d imm))
    (hd : ¬ Performs s .drst) (hr : ¬ Resets s) : t.h = s.h ∧ t.idx = s.idx := by
  obtain ⟨-, hr', -⟩ | ⟨i, hp, hres⟩ | ⟨c, rfl⟩ := step_resets_or_performs_or_raises h
  · exact absurd hr' hr
  · refine hres.dither_of_other ?_ ?_
    · rintro imm rfl
      exact hq ⟨imm, hp⟩
    · rintro rfl
      exact hd hp
  · exact ⟨rfl, rfl⟩

end DitherState

/-- Settles O24: a three-bit sum is the sum modulo 8. -/
theorem onlyQ16DAndFreshStartMoveIndex : Obligations.OnlyQ16DAndFreshStartMoveIndex := by
  intro s t h
  refine ⟨?_, fun hf => (step_dither_of_fresh h hf).1, fun hq hd hr => (step_dither_of_other h hq hd hr).2⟩
  rintro ⟨imm, hp⟩
  obtain ⟨_, -, hidx, -⟩ := step_dither_of_q16d h hp
  rw [hidx, BitVec.toNat_add]
  rfl

/-- Settles O25: Q16D writes at the new IDX only. -/
theorem onlyQ16DAndFreshStartWriteHistory : Obligations.OnlyQ16DAndFreshStartWriteHistory := by
  intro s t h
  refine ⟨?_, fun hf => (step_dither_of_fresh h hf).2, fun hq hd hr => (step_dither_of_other h hq hd hr).1⟩
  rintro ⟨imm, hp⟩ i hi
  obtain ⟨_, -, -, hhist⟩ := step_dither_of_q16d h hp
  rw [hhist, if_neg hi.symm]

/-- Settles O13: the reset values of the block, in the reset state and after a reset from any state. -/
theorem resetLeavesTheStatedValues : Obligations.ResetLeavesTheStatedValues := by
  rintro s t (rfl | ⟨hr, h⟩)
  · exact ⟨by decide, rfl, rfl, rfl, rfl, rfl, rfl, rfl, rfl⟩
  · obtain ⟨p, rfl⟩ := step_eq_resetBlock hr h
    exact ⟨resetBlock_hist _ p, rfl, rfl, rfl, rfl, rfl, rfl, rfl, rfl⟩

end Sys2Proof.Machine
end

/-! ## The dither path over the rationals: every error stays within 1.5 + 2^-40 (R32, R90, R96 to R105) -/

section
namespace Sys2Proof.Machine

open Sys2Proof.Claims

section RoundingBounds

variable {x : ℚ} {r lo hi : F64}

/-- What lies between the values of two patterns rounds to a value between them. -/
theorem IsRounded.mem_Icc (h : IsRounded x r) (hlo : f64Finite lo = true) (hhi : f64Finite hi = true)
    (hx : x ∈ Set.Icc (f64Val lo) (f64Val hi)) :
    f64Finite r = true ∧ f64Val r ∈ Set.Icc (f64Val lo) (f64Val hi) := by
  obtain ⟨hleft, hright⟩ := hx
  have hfin := h.finite (abs_lt.2 ⟨(abs_lt.1 (f64Val_lt_overflow hlo)).1.trans_le hleft,
    hright.trans_lt (abs_lt.1 (f64Val_lt_overflow hhi)).2⟩)
  exact ⟨hfin, h.ge hfin hlo hleft, h.le hfin hhi hright⟩

/-- Rounding does not leave an interval whose ends are multiples of `2 ^ -k`. -/
theorem IsRounded.mem_dyadic (h : IsRounded x r) {p q : ℚ} (k : ℕ) (a b : ℤ) (hk : k ≤ 1074)
    (ha : a.natAbs < 2 ^ 53) (hb : b.natAbs < 2 ^ 53) (hp : p = a / 2 ^ k) (hq : q = b / 2 ^ k)
    (hx : x ∈ Set.Icc p q) : f64Finite r = true ∧ f64Val r ∈ Set.Icc p q := by
  have hdiv : ∀ z : ℤ, (z : ℚ) * 2 ^ (-(k : ℤ)) = z / 2 ^ k := fun z => by
    rw [zpow_neg, zpow_natCast, ← div_eq_mul_inv]
  obtain ⟨lo, hlo, hloval⟩ := exists_f64Val a (-k) ha (by omega) (by omega)
  obtain ⟨hi, hhi, hhival⟩ := exists_f64Val b (-k) hb (by omega) (by omega)
  rw [hdiv, ← hp] at hloval
  rw [hdiv, ← hq] at hhival
  rw [← hloval, ← hhival] at hx ⊢
  exact h.mem_Icc hlo hhi hx

/-- A value below 2^53 units of `2 ^ e` is rounded by at most half a unit. -/
theorem IsRounded.error_le (h : IsRounded x r) {e : ℤ} (he : -1074 ≤ e) (he' : e ≤ 971)
    (hx : |x| ≤ (2 ^ 53 - 1) * 2 ^ e) : |f64Val r - x| ≤ 2 ^ e / 2 := by
  have hpos : (0 : ℚ) < 2 ^ e := by positivity
  have hunits : |x / 2 ^ e| ≤ 2 ^ 53 - 1 := by rwa [abs_div, abs_of_pos hpos, div_le_iff₀ hpos]
  have hnear := abs_sub_round (x / 2 ^ e)
  have hz : (round (x / 2 ^ e)).natAbs < 2 ^ 53 := by
    have hlt : |(round (x / 2 ^ e) : ℚ)| < 2 ^ 53 := by
      have htri := abs_sub_abs_le_abs_sub (round (x / 2 ^ e) : ℚ) (x / 2 ^ e)
      rw [abs_sub_comm] at htri
      linarith
    rw [← Int.cast_abs, Int.abs_eq_natAbs] at hlt
    exact_mod_cast hlt
  obtain ⟨c, hc, hcval⟩ := exists_f64Val _ e hz he he'
  have hclose : |f64Val c - x| ≤ 2 ^ e / 2 := by
    have heq : f64Val c - x = -((x / 2 ^ e - round (x / 2 ^ e)) * 2 ^ e) := by
      rw [hcval]
      field_simp
      ring
    rw [heq, abs_neg, abs_mul, abs_of_pos hpos]
    linarith [mul_le_mul_of_nonneg_right hnear hpos.le]
  have hfin : |x| < overflowBound := by
    obtain ⟨m, hm, hmval⟩ := exists_f64Val (2 ^ 53 - 1) e (by decide) he he'
    refine lt_of_le_of_lt (hx.trans ?_) (f64Val_lt_overflow hm)
    rw [hmval]
    exact (le_abs_self _).trans_eq' (by push_cast; ring)
  rcases h with ⟨hover, -⟩ | ⟨-, -, hbest, -⟩
  · exact absurd hfin (not_lt.2 hover)
  · exact (hbest c hc).trans hclose

end RoundingBounds

section MagnitudeOrder

variable {a b : F64}

theorem abs_f64Val (ha : f64Finite a = true) : |f64Val a| = magVal (f64Mag a) := by
  rw [f64Val_eq ha, abs_mul, abs_of_nonneg (magVal_nonneg _)]
  cases f64Sign a <;> simp

/-- Magnitude bits no larger than those of a finite pattern mean a finite value no larger in magnitude. -/
theorem abs_f64Val_le_of_mag_le (hb : f64Finite b = true) (h : f64Mag a ≤ f64Mag b) :
    f64Finite a = true ∧ |f64Val a| ≤ |f64Val b| := by
  have ha : f64Finite a = true := (f64Finite_iff a).2 (h.trans_lt ((f64Finite_iff b).1 hb))
  rw [abs_f64Val ha, abs_f64Val hb]
  exact ⟨ha, magVal_strictMono.monotone h⟩

end MagnitudeOrder

section Literals

theorem f64Val_fHalf : f64Finite fHalf = true ∧ f64Val fHalf = 1 / 2 := by
  obtain ⟨hfin, hval⟩ := f64Val_of_fin (c := fHalf) (s := false) (m := 2 ^ 52) (e := -53) (by decide)
  exact ⟨hfin, by rw [hval]; norm_num⟩

theorem f64Val_f128 : f64Finite f128 = true ∧ f64Val f128 = 128 := by
  obtain ⟨hfin, hval⟩ := f64Val_of_fin (c := f128) (s := false) (m := 2 ^ 52) (e := -45) (by decide)
  exact ⟨hfin, by rw [hval]; norm_num⟩

theorem f64Val_f256 : f64Finite f256 = true ∧ f64Val f256 = 256 := by
  obtain ⟨hfin, hval⟩ := f64Val_of_fin (c := f256) (s := false) (m := 2 ^ 52) (e := -44) (by decide)
  exact ⟨hfin, by rw [hval]; norm_num⟩

/-- The magnitude of every weight is at most that of the second, 2.165 to 53 bits (R8). -/
theorem abs_tap_le {tap : BitVec 3 × F64} (h : tap ∈ taps) :
    f64Finite tap.2 = true ∧ |f64Val tap.2| ≤ 2166 / 1000 := by
  obtain ⟨hfin, hval⟩ := f64Val_of_fin (c := 0xC00151EB851EB852) (s := true) (m := 0x1151EB851EB852) (e := -51)
    (by decide)
  have hmag : ∀ tap ∈ taps, f64Mag tap.2 ≤ f64Mag 0xC00151EB851EB852 := by
    simp only [taps, List.forall_mem_cons, List.not_mem_nil, false_implies, implies_true, and_true]
    decide
  obtain ⟨htap, hle⟩ := abs_f64Val_le_of_mag_le hfin (hmag tap h)
  refine ⟨htap, hle.trans ?_⟩
  rw [hval]
  norm_num [abs_le]

end Literals

section DitherPath

variable {hist : BitVec 3 → F64} {idx : BitVec 3} {v xe : F64} {p : NoisePair}

/-- The quotient of a sample by 256 is exact: an integer times 2^-8 (R90). -/
theorem sampleQuotient_exact (imm : BitVec 16) :
    f64Finite (f64Div (i2f (sext16 imm)) f256) = true ∧
      f64Val (f64Div (i2f (sext16 imm)) f256) = (imm.toInt : ℚ) / 256 := by
  have hlow := BitVec.le_toInt imm
  have hhigh := BitVec.toInt_lt (x := imm)
  obtain ⟨hi, hival⟩ := i2f_exact (n := sext16 imm) (by unfold sext16; omega)
  obtain ⟨h256, h256val⟩ := f64Val_f256
  have hround := f64Div_isRounded hi h256 (by rw [h256val]; norm_num)
  obtain ⟨c, hc, hcval⟩ := exists_f64Val imm.toInt (-8) (by omega) (by decide) (by decide)
  have heq : f64Val c = f64Val (i2f (sext16 imm)) / f64Val f256 := by
    rw [hcval, hival, h256val, sext16]
    norm_num [div_eq_mul_inv]
  obtain ⟨hfin, hval⟩ := hround.exact hc heq
  exact ⟨hfin, by rw [hval, hival, h256val, sext16]⟩

/-- The pre-rounding value of a sample is exact (R90). -/
theorem sampleValue_exact (imm : BitVec 16) :
    f64Finite (sampleValue imm) = true ∧ f64Val (sampleValue imm) = ((imm.toInt : ℚ) + 32768) / 256 := by
  have hlow := BitVec.le_toInt imm
  have hhigh := BitVec.toInt_lt (x := imm)
  obtain ⟨hq, hqval⟩ := sampleQuotient_exact imm
  obtain ⟨h128, h128val⟩ := f64Val_f128
  obtain ⟨c, hc, hcval⟩ := exists_f64Val (imm.toInt + 32768) (-8) (by omega) (by decide) (by decide)
  have hsum : f64Val (f64Div (i2f (sext16 imm)) f256) + f64Val f128 = ((imm.toInt : ℚ) + 32768) / 256 := by
    rw [hqval, h128val]
    ring
  have heq : f64Val c = f64Val (f64Div (i2f (sext16 imm)) f256) + f64Val f128 := by
    rw [hsum, hcval]
    push_cast
    norm_num [div_eq_mul_inv]
  obtain ⟨hfin, hval⟩ := (f64Add_isRounded hq h128).exact hc heq
  exact ⟨hfin, hval.trans hsum⟩

theorem sampleValue_mem (imm : BitVec 16) : f64Val (sampleValue imm) ∈ Set.Icc (0 : ℚ) 256 := by
  have hlow : (-32768 : ℚ) ≤ imm.toInt := by exact_mod_cast BitVec.le_toInt imm
  have hhigh : (imm.toInt : ℚ) < 32768 := by exact_mod_cast BitVec.toInt_lt (x := imm)
  rw [(sampleValue_exact imm).2]
  constructor <;> linarith

/-- An error a history may hold (R32). -/
def ErrorBounded (e : F64) : Prop := f64Finite e = true ∧ |f64Val e| ≤ 3 / 2 + 1 / 2 ^ 40

/-- A partial sum of `xe`: the pre-rounding value and `n` weighted errors. -/
def TapSumBounded (n : ℕ) (acc : F64) : Prop :=
  f64Finite acc = true ∧ f64Val acc ∈ Set.Icc (-(13 * n / 4) : ℚ) (256 + 13 * n / 4)

/-- A bounded error times a weight is at most 3.25 in magnitude. -/
theorem weightedError_mem {e : F64} {tap : BitVec 3 × F64} (he : ErrorBounded e) (htap : tap ∈ taps) :
    f64Finite (f64Mul e tap.2) = true ∧ f64Val (f64Mul e tap.2) ∈ Set.Icc (-(13 / 4) : ℚ) (13 / 4) := by
  obtain ⟨hfin, hle⟩ := he
  obtain ⟨hw, hwle⟩ := abs_tap_le htap
  have hprod : |f64Val e * f64Val tap.2| ≤ 13 / 4 := by
    rw [abs_mul]
    refine (mul_le_mul hle hwle (abs_nonneg _) (by positivity)).trans ?_
    norm_num
  exact (f64Mul_isRounded hfin hw).mem_dyadic 2 (-13) 13 (by decide) (by decide) (by decide) (by norm_num)
    (by norm_num) (abs_le.1 hprod)

/-- One more weighted error moves a partial sum by at most 3.25. -/
theorem TapSumBounded.add {n : ℕ} {acc e : F64} {tap : BitVec 3 × F64} (hacc : TapSumBounded n acc)
    (hn : n < 2 ^ 32) (he : ErrorBounded e) (htap : tap ∈ taps) :
    TapSumBounded (n + 1) (f64Add acc (f64Mul e tap.2)) := by
  obtain ⟨hfin, hlow, hhigh⟩ := hacc
  obtain ⟨hmul, hmlow, hmhigh⟩ := weightedError_mem he htap
  refine (f64Add_isRounded hfin hmul).mem_dyadic 2 (-(13 * (n + 1))) (1024 + 13 * (n + 1)) (by decide) (by omega)
    (by omega) ?_ ?_ ⟨?_, ?_⟩
  · push_cast
    ring
  · push_cast
    ring
  · push_cast
    linarith
  · push_cast
    linarith

/-- The taps one after the other. -/
theorem TapSumBounded.foldl (hhist : ∀ i, ErrorBounded (hist i)) (ts : List (BitVec 3 × F64)) {n : ℕ} {acc : F64}
    (hacc : TapSumBounded n acc) (hts : ts ⊆ taps) (hn : n + ts.length ≤ 2 ^ 32) :
    TapSumBounded (n + ts.length)
      (ts.foldl (fun acc tap => f64Add acc (f64Mul (hist (idx - tap.1)) tap.2)) acc) := by
  induction ts generalizing n acc with
  | nil => exact hacc
  | cons tap ts ih =>
    obtain ⟨htap, hts⟩ := List.cons_subset.1 hts
    rw [List.length_cons] at hn ⊢
    rw [show n + (ts.length + 1) = n + 1 + ts.length by omega]
    exact ih (hacc.add (by omega) (hhist _) htap) hts (by omega)

/-- On a bounded history `xe` is the pre-rounding value and five weighted errors (R105). -/
theorem ditherInput_bounded {s : State} (hs : s.HistoryBounded) (imm : BitVec 16) :
    TapSumBounded 5 (ditherInput imm s) := by
  have hv : TapSumBounded 0 (sampleValue imm) := ⟨(sampleValue_exact imm).1, by simpa using sampleValue_mem imm⟩
  exact hv.foldl hs taps (List.Subset.refl _) (by decide)

/-- The noise of a pair of the range lies in [-1, 1] (R99). -/
theorem noise_mem (hp : p.inRange = true) :
    f64Finite (f64Add p.u1 p.u2) = true ∧ f64Val (f64Add p.u1 p.u2) ∈ Set.Icc (-1 : ℚ) 1 := by
  have hhalf : ∀ u, inHalfRange u = true → f64Finite u = true ∧ |f64Val u| ≤ 1 / 2 := fun u hu => by
    obtain ⟨hfin, hval⟩ := f64Val_fHalf
    have hmag : f64Mag u ≤ f64Mag fHalf := of_decide_eq_true hu
    have h := abs_f64Val_le_of_mag_le hfin hmag
    rwa [hval, abs_of_pos (a := (1 / 2 : ℚ)) one_half_pos] at h
  obtain ⟨h1, h2⟩ := Bool.and_eq_true_iff.1 hp
  obtain ⟨hfin1, hle1⟩ := hhalf _ h1
  obtain ⟨hfin2, hle2⟩ := hhalf _ h2
  obtain ⟨hlow1, hhigh1⟩ := abs_le.1 hle1
  obtain ⟨hlow2, hhigh2⟩ := abs_le.1 hle2
  exact (f64Add_isRounded hfin1 hfin2).mem_dyadic 0 (-1) 1 (by decide) (by decide) (by decide) (by norm_num)
    (by norm_num) ⟨by linarith, by linarith⟩

/-- A sum below 512 in magnitude is finite, and its rounding moves it by at most 2^-45. -/
theorem f64Add_near {a b : F64} (ha : f64Finite a = true) (hb : f64Finite b = true)
    (h : |f64Val a + f64Val b| ≤ 511) :
    f64Finite (f64Add a b) = true ∧ |f64Val (f64Add a b) - (f64Val a + f64Val b)| ≤ 1 / 2 ^ 45 := by
  have hround := f64Add_isRounded ha hb
  have hfin := (hround.mem_dyadic 0 (-511) 511 (by decide) (by decide) (by decide) (by norm_num) (by norm_num)
    (abs_le.1 h)).1
  refine ⟨hfin, (hround.error_le (e := -44) (by decide) (by decide) (h.trans ?_)).trans ?_⟩ <;> norm_num

/-- The two additions before the floor together move `xe + n + 0.5` by at most 2^-44 (R32). -/
theorem ditherResult_near (hxe : TapSumBounded 5 xe) (hp : p.inRange = true) :
    f64Finite (f64Add xe (f64Add p.u1 p.u2)) = true ∧ f64Finite (ditherResult xe p) = true ∧
      f64Val xe + f64Val (f64Add p.u1 p.u2) - 1 / 2 - 1 / 2 ^ 44 < f64Val (ditherResult xe p) ∧
      f64Val (ditherResult xe p) ≤ f64Val xe + f64Val (f64Add p.u1 p.u2) + 1 / 2 + 1 / 2 ^ 44 := by
  obtain ⟨hfin, hlow, hhigh⟩ := hxe
  obtain ⟨hn, hnlow, hnhigh⟩ := noise_mem hp
  obtain ⟨hhalf, hhalfval⟩ := f64Val_fHalf
  norm_num at hlow hhigh
  obtain ⟨ht1, hnear1⟩ := f64Add_near hfin hn (abs_le.2 ⟨by linarith, by linarith⟩)
  obtain ⟨hlow1, hhigh1⟩ := abs_le.1 hnear1
  obtain ⟨ht2, hnear2⟩ := f64Add_near ht1 hhalf
    (abs_le.2 ⟨by rw [hhalfval]; linarith, by rw [hhalfval]; linarith⟩)
  obtain ⟨hlow2, hhigh2⟩ := abs_le.1 hnear2
  obtain ⟨hr, hrval⟩ := floor64_exact ht2
  rw [hhalfval] at hlow2 hhigh2
  refine ⟨ht1, hr, ?_, ?_⟩
  · rw [ditherResult, roundHalfUp, hrval]
    linarith [Int.lt_floor_add_one (f64Val (f64Add (f64Add xe (f64Add p.u1 p.u2)) fHalf))]
  · rw [ditherResult, roundHalfUp, hrval]
    linarith [Int.floor_le (f64Val (f64Add (f64Add xe (f64Add p.u1 p.u2)) fHalf))]

/-- The error Q16D writes is bounded again: it is the noise and half a unit, but for the roundings (R105). -/
theorem ditherError_bounded (hxe : TapSumBounded 5 xe) (hp : p.inRange = true) :
    ErrorBounded (f64Sub xe (ditherResult xe p)) := by
  obtain ⟨-, hr, hlow, hhigh⟩ := ditherResult_near hxe hp
  obtain ⟨-, hnlow, hnhigh⟩ := noise_mem hp
  obtain ⟨hfin, hmem⟩ := (f64Sub_isRounded hxe.1 hr).mem_dyadic (p := -(3 / 2 + 1 / 2 ^ 40))
    (q := 3 / 2 + 1 / 2 ^ 40) 40 (-(3 * 2 ^ 39 + 1)) (3 * 2 ^ 39 + 1) (by decide) (by decide) (by decide)
    (by norm_num) (by norm_num) ⟨by linarith, by linarith⟩
  exact ⟨hfin, abs_le.2 hmem⟩

/-- A history of zeros is bounded. -/
theorem historyBounded_of_zero {s : State} (h : ∀ i, s.hist i = 0) : s.HistoryBounded := by
  intro i
  rw [h, f64Val_zero]
  exact ⟨by decide, by positivity⟩

end DitherPath

/-- Settles O41: Q16D writes one bounded error, DRST and reset write zeros, and no other step writes the history. -/
theorem historyStaysBounded : Obligations.HistoryStaysBounded := by
  intro s t hs h
  by_cases hq : ∃ imm, Performs s (.q16d imm)
  · obtain ⟨imm, hperf⟩ := hq
    obtain ⟨p, hp, -, hhist⟩ := step_dither_of_q16d h hperf
    intro i
    rw [hhist]
    split
    · exact ditherError_bounded (ditherInput_bounded hs imm) hp
    · exact hs i
  by_cases hf : Performs s .drst ∨ Resets s
  · exact historyBounded_of_zero (step_dither_of_fresh h hf).2
  · obtain ⟨hd, hr⟩ := not_or.1 hf
    intro i
    rw [hist_of_h_eq _ _ (step_dither_of_other h hq hd hr).1]
    exact hs i

/-- Settles O42: the reset state has a history of zeros, no error report and no noise supplied. -/
theorem invariantsHoldAtReset : Obligations.InvariantsHoldAtReset :=
  ⟨historyBounded_of_zero (by decide), errorConsistent_of_cleared rfl rfl rfl,
    fun _ hp => absurd hp List.not_mem_nil⟩

end Sys2Proof.Machine
end

/-! ## STATUS, and what an instruction and a step leave unchanged (R21 to R23, R28 to R30, R41) -/

section
namespace Sys2Proof.Machine

open Sys2Proof.Claims

section Status

variable {s t : State}

/-- The bits of STATUS from bit 0 up (R22). -/
theorem statusWord_getLsbD (s : State) (b : ℕ) : (statusWord s).getLsbD b =
    if b < 8 then s.out.getLsbD b
    else if b < 11 then s.idx.getLsbD (b - 8)
    else if b < 16 then false
    else if b < 17 then s.ill
    else if b < 18 then s.berr
    else if b < 20 then false
    else if b < 24 then s.ecause.getLsbD (b - 20)
    else false := by
  have hsub : ∀ k w, 0 < w → (b - k < w ↔ b < k + w) := by omega
  have hzero : ∀ k, b < k + 1 → b - k = 0 := by omega
  unfold statusWord
  simp only [BitVec.getLsbD_append, BitVec.getLsbD_ofBool, BitVec.getLsbD_zero]
  simp +contextual [Nat.sub_sub, hsub, hzero]

/-- A bit of STATUS is as before when the register it belongs to is. -/
theorem statusBit_congr {b : ℕ} (hout : b ≤ 7 → t.out = s.out) (hidx : 8 ≤ b ∧ b ≤ 10 → t.idx = s.idx)
    (hill : b = 16 → t.ill = s.ill) (hberr : b = 17 → t.berr = s.berr)
    (hcause : 20 ≤ b ∧ b ≤ 23 → t.ecause = s.ecause) :
    (busRead .status t).getLsbD b = (busRead .status s).getLsbD b := by
  simp only [busRead_status, statusWord_getLsbD]
  split_ifs
  · rw [hout (by omega)]
  · rw [hidx (by omega)]
  · rfl
  · exact hill (by omega)
  · exact hberr (by omega)
  · rfl
  · rw [hcause (by omega)]
  · rfl

end Status

/-- Settles O7: a flag is one bit of the word, and every bit of another field falls in that field's range. -/
theorem statusFieldsStandAtTheirBits : Obligations.StatusFieldsStandAtTheirBits := by
  intro s
  refine ⟨?_, ?_, ?_, ?_, ?_, ?_, ?_, ?_⟩
  case refine_4 | refine_5 => simp [statusWord_getLsbD, -BitVec.getLsbD_eq_getElem]
  all_goals
    ext i hi
    rw [BitVec.getElem_extractLsb', busRead_status, statusWord_getLsbD]
    simp (disch := omega) [if_pos, if_neg]

section SlotFrames

variable {s t : State} {slot : Slot}

/-- A slot other than STATUS shows the history, XHI, XLO or FRES. -/
theorem busRead_congr_of_ne_status (hslot : slot ≠ .status) (hh : t.h = s.h) (hxhi : t.xhi = s.xhi)
    (hxlo : t.xlo = s.xlo) (hfres : t.fres = s.fres) : busRead slot t = busRead slot s := by
  cases slot with
  | status => exact absurd rfl hslot
  | xhi => exact hxhi
  | xlo => exact hxlo
  | fresl => rw [busRead_fresl, hfres, busRead_fresl]
  | fresh => rw [busRead_fresh, hfres, busRead_fresh]
  | hl i => rw [busRead_hl, hist_of_h_eq s t hh, busRead_hl]
  | hh i => rw [busRead_hh, hist_of_h_eq s t hh, busRead_hh]
  | _ => rfl

theorem busRead_setXhi (d : Word) (hslot : slot ≠ .xhi) : busRead slot (s.setXhi d) = busRead slot s := by
  cases slot with
  | xhi => exact absurd rfl hslot
  | _ => rfl

theorem busRead_setXlo (d : Word) (hslot : slot ≠ .xlo) : busRead slot (s.setXlo d) = busRead slot s := by
  cases slot with
  | xlo => exact absurd rfl hslot
  | _ => rfl

theorem busRead_setFres (v : F64) (hl : slot ≠ .fresl) (hh : slot ≠ .fresh) :
    busRead slot (s.setFres v) = busRead slot s := by
  cases slot with
  | fresl => exact absurd rfl hl
  | fresh => exact absurd rfl hh
  | _ => rfl

theorem busRead_freshDither (hstatus : slot ≠ .status) (hl : ∀ k, slot ≠ .hl k) (hh : ∀ k, slot ≠ .hh k) :
    busRead slot s.freshDither = busRead slot s := by
  cases slot with
  | status => exact absurd rfl hstatus
  | hl k => exact absurd rfl (hl k)
  | hh k => exact absurd rfl (hh k)
  | _ => rfl

theorem busRead_ditherWrite (xe r : F64) (hstatus : slot ≠ .status) (hl : slot ≠ .hl (s.idx + 1))
    (hh : slot ≠ .hh (s.idx + 1)) : busRead slot (ditherWrite xe r s) = busRead slot s := by
  cases slot with
  | status => exact absurd rfl hstatus
  | hl k => rw [busRead_hl, ditherWrite_hist, if_neg (mt (congrArg Slot.hl) hl.symm), busRead_hl]
  | hh k => rw [busRead_hh, ditherWrite_hist, if_neg (mt (congrArg Slot.hh) hh.symm), busRead_hh]
  | _ => rfl

end SlotFrames

section InstructionFrames

variable {s t : State} {i : Instr}

/-- The errors of the bus set BERR, never ILL (R42, R110). -/
theorem causeIsIll_of_writeError {a : Access} {c : ErrCause} (h : a.writeError = some c) : causeIsIll c = false := by
  cases a <;> cases h <;> rfl

/-- Every slot an instruction does not name reads as before. -/
theorem ExecResult.busRead_frame (h : ExecResult i s t) {slot : Slot} (hslot : ¬ touches i s slot) :
    busRead slot t = busRead slot s := by
  cases i with
  | nop => cases h; rfl
  | rd slot' => cases h; exact busRead_of_sameBlock ⟨rfl, rfl, rfl, rfl, rfl, rfl, rfl, rfl, rfl⟩ slot
  | drst =>
    cases h
    obtain ⟨hstatus, hhist⟩ := not_or.1 hslot
    obtain ⟨hl, hh⟩ := not_or.1 hhist
    exact busRead_freshDither hstatus (not_exists.1 hl) (not_exists.1 hh)
  | eclr => cases h; exact busRead_congr_of_ne_status hslot rfl rfl rfl rfl
  | byp8 b => cases h; exact busRead_congr_of_ne_status hslot rfl rfl rfl rfl
  | q16 imm => cases h; exact busRead_congr_of_ne_status hslot rfl rfl rfl rfl
  | q16d imm =>
    obtain ⟨p, -, rfl⟩ := h.eq_ditherWrite
    obtain ⟨hstatus, hhist⟩ := not_or.1 hslot
    obtain ⟨hl, hh⟩ := not_or.1 hhist
    exact (busRead_ditherWrite _ _ hstatus hl hh).trans
      (busRead_of_sameBlock ⟨rfl, rfl, rfl, rfl, rfl, rfl, rfl, rfl, rfl⟩ slot)
  | xcvt imm =>
    cases h
    obtain ⟨hl, hh⟩ := not_or.1 hslot
    exact busRead_setFres _ hl hh
  | wrXhi d => cases h; exact busRead_setXhi d hslot
  | wrXlo d => cases h; exact busRead_setXlo d hslot
  | wrBad slot' d =>
    obtain ⟨c, -, rfl⟩ := h
    exact busRead_congr_of_ne_status hslot rfl rfl rfl rfl

/-- Every bit of STATUS an instruction does not name is as before. -/
theorem ExecResult.statusBit_frame (h : ExecResult i s t) {b : ℕ} (hb : ¬ touchesStatusBit i b) :
    (busRead .status t).getLsbD b = (busRead .status s).getLsbD b := by
  cases i with
  | drst =>
    cases h
    exact statusBit_congr (fun _ => rfl) (fun hidx => absurd hidx hb) (fun _ => rfl) (fun _ => rfl) fun _ => rfl
  | eclr =>
    cases h
    exact statusBit_congr (fun _ => rfl) (fun _ => rfl) (fun hill => absurd (.inl hill) hb)
      (fun hberr => absurd (.inr (.inl hberr)) hb) fun hcause => absurd (.inr (.inr hcause)) hb
  | byp8 _ =>
    cases h
    exact statusBit_congr (fun hout => absurd hout hb) (fun _ => rfl) (fun _ => rfl) (fun _ => rfl) fun _ => rfl
  | q16 _ =>
    cases h
    exact statusBit_congr (fun hout => absurd hout hb) (fun _ => rfl) (fun _ => rfl) (fun _ => rfl) fun _ => rfl
  | q16d imm =>
    obtain ⟨p, -, rfl⟩ := h.eq_ditherWrite
    exact statusBit_congr (fun hout => absurd (hout.trans (by decide)) hb) (fun hidx => absurd hidx.2 hb)
      (fun _ => rfl) (fun _ => rfl) fun _ => rfl
  | wrBad slot d =>
    obtain ⟨c, hc, rfl⟩ := h
    exact statusBit_congr (fun _ => rfl) (fun _ => rfl)
      (fun _ => by rw [raise_ill, causeIsIll_of_writeError hc, Bool.or_false])
      (fun hberr => absurd (.inl hberr) hb) fun hcause => absurd (.inr hcause) hb
  | _ =>
    cases h
    exact statusBit_congr (fun _ => rfl) (fun _ => rfl) (fun _ => rfl) (fun _ => rfl) fun _ => rfl

/-- Which instruction writes which register (R23, R28 to R30), and that only a read gives the host a word (R41). -/
structure RegisterWriters (i : Instr) (s t : State) : Prop where
  out : t.out ≠ s.out → (∃ b, i = .byp8 b) ∨ (∃ imm, i = .q16 imm) ∨ ∃ imm, i = .q16d imm
  xhi : t.xhi ≠ s.xhi → i = .wrXhi t.xhi
  xlo : t.xlo ≠ s.xlo → i = .wrXlo t.xlo
  fres : t.fres ≠ s.fres → ∃ imm, i = .xcvt imm
  returned : (∀ slot, i ≠ .rd slot) → t.returned = s.returned
  inputs : t.inputs = s.inputs

theorem ExecResult.registerWriters (h : ExecResult i s t) : RegisterWriters i s t := by
  cases i with
  | byp8 b =>
    cases h
    exact ⟨fun _ => .inl ⟨b, rfl⟩, absurd rfl, absurd rfl, absurd rfl, fun _ => rfl, rfl⟩
  | q16 imm =>
    cases h
    exact ⟨fun _ => .inr (.inl ⟨imm, rfl⟩), absurd rfl, absurd rfl, absurd rfl, fun _ => rfl, rfl⟩
  | q16d imm =>
    obtain ⟨p, -, rfl⟩ := h.eq_ditherWrite
    exact ⟨fun _ => .inr (.inr ⟨imm, rfl⟩), absurd rfl, absurd rfl, absurd rfl, fun _ => rfl, rfl⟩
  | xcvt imm =>
    cases h
    exact ⟨absurd rfl, absurd rfl, absurd rfl, fun _ => ⟨imm, rfl⟩, fun _ => rfl, rfl⟩
  | rd slot =>
    cases h
    exact ⟨absurd rfl, absurd rfl, absurd rfl, absurd rfl, fun hi => absurd rfl (hi slot), rfl⟩
  | wrXhi d =>
    cases h
    exact ⟨absurd rfl, fun _ => rfl, absurd rfl, absurd rfl, fun _ => rfl, rfl⟩
  | wrXlo d =>
    cases h
    exact ⟨absurd rfl, absurd rfl, fun _ => rfl, absurd rfl, fun _ => rfl, rfl⟩
  | wrBad slot d =>
    obtain ⟨c, -, rfl⟩ := h
    exact ⟨absurd rfl, absurd rfl, absurd rfl, absurd rfl, fun _ => rfl, rfl⟩
  | _ =>
    cases h
    exact ⟨absurd rfl, absurd rfl, absurd rfl, absurd rfl, fun _ => rfl, rfl⟩

end InstructionFrames

/-- Settles O22: slot by slot, bit by bit, and the model's own fields. -/
theorem instructionsChangeOnlyTheirSlots : Obligations.InstructionsChangeOnlyTheirSlots := by
  intro i s t h
  have hres := exec_next h
  exact ⟨fun _ => hres.busRead_frame, fun _ => hres.statusBit_frame, hres.registerWriters.inputs,
    hres.registerWriters.returned, hres.noise_of_ne_q16d⟩

section Writers

variable {s t : State}

/-- A register that neither an error report nor the taking of an input touches is changed only by reset and by the
instruction performed. -/
theorem resets_or_performs_of_changed {α : Type} (reg : State → α) (hraise : ∀ s c, reg (State.raise c s) = reg s)
    (hinputs : ∀ s l, reg (State.withInputs l s) = reg s) (h : step s = .next t) (hne : reg t ≠ reg s) :
    Resets s ∨ ∃ i, Performs s i ∧ ExecResult i (s.withInputs s.inputs.tail) t ∧
      reg t ≠ reg (s.withInputs s.inputs.tail) := by
  obtain ⟨p, hr, -⟩ | ⟨i, hp, hres⟩ | ⟨c, rfl⟩ := step_resets_or_performs_or_raises h
  · exact .inl hr
  · exact .inr ⟨i, hp, hres, by rwa [hinputs]⟩
  · rw [hraise, hinputs] at hne
    exact absurd rfl hne

end Writers

/-- Settles O23: the performed instruction is one of the three that write OUT. -/
theorem onlySampleCommandsWriteOut : Obligations.OnlySampleCommandsWriteOut := by
  intro s t h hne
  refine (resets_or_performs_of_changed State.out (fun _ _ => rfl) (fun _ _ => rfl) h hne).imp_right ?_
  rintro ⟨i, hp, hres, hne'⟩
  obtain ⟨b, rfl⟩ | ⟨imm, rfl⟩ | ⟨imm, rfl⟩ := hres.registerWriters.out hne'
  · exact .inl ⟨b, hp⟩
  · exact .inr (.inl ⟨imm, hp⟩)
  · exact .inr (.inr ⟨imm, hp⟩)

/-- Settles O26: the performed instruction is the write of that word. -/
theorem onlyBusWritesChangeMantissaWords : Obligations.OnlyBusWritesChangeMantissaWords := by
  intro s t h
  constructor
  · intro hne
    refine (resets_or_performs_of_changed State.xhi (fun _ _ => rfl) (fun _ _ => rfl) h hne).imp_right ?_
    rintro ⟨i, hp, hres, hne'⟩
    exact ⟨t.xhi, hres.registerWriters.xhi hne' ▸ hp, rfl⟩
  · intro hne
    refine (resets_or_performs_of_changed State.xlo (fun _ _ => rfl) (fun _ _ => rfl) h hne).imp_right ?_
    rintro ⟨i, hp, hres, hne'⟩
    exact ⟨t.xlo, hres.registerWriters.xlo hne' ▸ hp, rfl⟩

/-- Settles O27: the performed instruction is an XCVT. -/
theorem onlyXcvtWritesFres : Obligations.OnlyXcvtWritesFres := by
  intro s t h hne
  refine (resets_or_performs_of_changed State.fres (fun _ _ => rfl) (fun _ _ => rfl) h hne).imp_right ?_
  rintro ⟨i, hp, hres, hne'⟩
  obtain ⟨imm, rfl⟩ := hres.registerWriters.fres hne'
  exact ⟨imm, hp⟩

end Sys2Proof.Machine
end

/-! ## The bus: what a write and a read do, by address (R41, R42, R45, R46, R61, R65) -/

section
namespace Sys2Proof.Machine

open Sys2Proof.Claims

section Words

/-- Fields set side by side, as numbers (R6). -/
theorem toNat_append_eq_add {m n : ℕ} (x : BitVec m) (y : BitVec n) :
    (x ++ y).toNat = x.toNat * 2 ^ n + y.toNat := by
  rw [BitVec.toNat_append, ← Nat.shiftLeft_add_eq_or_of_lt y.isLt, Nat.shiftLeft_eq]

/-- Four file bytes, the first the most significant (R46). -/
theorem toNat_bigEndian (b0 b1 b2 b3 : Byte) : (b0 ++ b1 ++ b2 ++ b3 : Word).toNat =
    b0.toNat * 2 ^ 24 + b1.toNat * 2 ^ 16 + b2.toNat * 2 ^ 8 + b3.toNat := by
  simp only [toNat_append_eq_add]
  omega

/-- The low bits of a word as a number modulo their count. -/
theorem extractLsb'_zero_eq_ofNat {m : ℕ} (n : ℕ) (x : BitVec m) : x.extractLsb' 0 n = BitVec.ofNat n x.toNat := by
  apply BitVec.eq_of_toNat_eq
  rw [BitVec.extractLsb'_toNat, Nat.shiftRight_zero, BitVec.toNat_ofNat]

theorem toNat_lowWord (v : F64) : (v.extractLsb' 0 32).toNat = v.toNat % 2 ^ 32 := by
  rw [BitVec.extractLsb'_toNat, Nat.shiftRight_zero]

theorem toNat_highWord (v : F64) : (v.extractLsb' 32 32).toNat = v.toNat / 2 ^ 32 := by
  rw [BitVec.extractLsb'_toNat, Nat.shiftRight_eq_div_pow]
  omega

end Words

section CommandWords

variable (d : Word) (op : BitVec 8) (imm : BitVec 16)

/-! The fields of a command word as numbers (R57). -/

theorem fieldOp_toNat : (fieldOp d).toNat = d.toNat / 2 ^ 24 := by
  rw [fieldOp, BitVec.extractLsb'_toNat, Nat.shiftRight_eq_div_pow]
  omega

theorem fieldRsv_toNat : (fieldRsv d).toNat = d.toNat / 2 ^ 16 % 2 ^ 8 := by
  rw [fieldRsv, BitVec.extractLsb'_toNat, Nat.shiftRight_eq_div_pow]

theorem fieldImm_eq_ofNat : fieldImm d = BitVec.ofNat 16 d.toNat := extractLsb'_zero_eq_ofNat 16 d

/-- The operand of BYP8 is legal when it is a byte (R60). -/
theorem highByte_eq_zero_iff : imm.extractLsb' 8 8 = 0#8 ↔ imm.toNat / 256 = 0 := by
  rw [← BitVec.toNat_inj, BitVec.extractLsb'_toNat, Nat.shiftRight_eq_div_pow, BitVec.toNat_zero]
  omega

/-- The opcode map and the operand constraints on numbers (R59, R60): an unknown opcode, an illegal operand or the
instruction named. -/
theorem commandOf_onNumbers :
    (op.toNat ∉ [0x00, 0x01, 0x02, 0x10, 0x11, 0x12, 0x20] ∧ commandOf op imm = none) ∨
    (op.toNat ∈ [0x00, 0x01, 0x02, 0x10, 0x11, 0x12, 0x20] ∧
      ∃ legal, commandOf op imm = some legal ∧ (badOperand op.toNat imm → legal = none) ∧
        (¬ badOperand op.toNat imm → legal = some (commandNamed op.toNat imm))) := by
  obtain ⟨rfl, e⟩ | ⟨rfl, e⟩ | ⟨rfl, e⟩ | ⟨rfl, e⟩ | ⟨rfl, e⟩ | ⟨rfl, e⟩ | ⟨rfl, e⟩ | ⟨hop, e⟩ := commandOf_cases op imm
  all_goals rw [e]
  -- NOP, DRST and ECLR: the operand is 0.
  iterate 3
    · by_cases himm : imm = 0#16 <;> simp [badOperand, commandNamed, himm]
  -- BYP8: the operand is a byte.
  · by_cases himm : imm.toNat / 256 = 0 <;>
      simp [badOperand, commandNamed, highByte_eq_zero_iff, extractLsb'_zero_eq_ofNat, himm, -Nat.div_eq_zero_iff]
  -- Q16, Q16D and XCVT: every operand is legal.
  iterate 3
    · simp [badOperand, commandNamed]
  · simpa [← BitVec.toNat_inj] using hop

/-! The checks of a command word in their order (R61). -/

variable {d} {i : Instr} {legal : Option Instr}

theorem decodeCommand_of_unknown (h : commandOf (fieldOp d) (fieldImm d) = none) :
    decodeCommand d = .error .illOpcode := by
  simp only [decodeCommand, h]

theorem decodeCommand_of_reserved (h : commandOf (fieldOp d) (fieldImm d) = some legal) (hr : fieldRsv d ≠ 0) :
    decodeCommand d = .error .illRsvd := by
  simp only [decodeCommand, h, if_pos hr]

theorem decodeCommand_of_illegal (h : commandOf (fieldOp d) (fieldImm d) = some none) (hr : fieldRsv d = 0) :
    decodeCommand d = .error .illOperand := by
  simp only [decodeCommand, h, hr, ne_eq, not_true_eq_false, if_false]

theorem decodeCommand_of_legal (h : commandOf (fieldOp d) (fieldImm d) = some (some i)) (hr : fieldRsv d = 0) :
    decodeCommand d = .ok i := by
  simp only [decodeCommand, h, hr, ne_eq, not_true_eq_false, if_false]

/-- XCVT is legal with every operand (R60). -/
theorem decodeCommand_xcvt : decodeCommand (cWord 0x20 imm) = .ok (.xcvt imm) :=
  decodeCommand_of_legal (by rw [fieldOp_cWord, fieldImm_cWord]; rfl) (fieldRsv_cWord _ _)

/-- An operation code over a 16-bit operand, as the assembler puts the two together (R64). -/
theorem code_or_operand_eq_cWord (d : Word) : (op ++ 0#24) ||| (d &&& 0xFFFF) = cWord op (d.setWidth 16) := by
  apply BitVec.eq_of_getLsbD_eq
  intro i hi
  have hmask : (0xFFFF#32).getLsbD i = decide (i < 16) := by interval_cases i <;> rfl
  simp only [cWord_getLsbD, BitVec.getLsbD_or, BitVec.getLsbD_and, BitVec.getLsbD_append, BitVec.getLsbD_setWidth,
    BitVec.ofNat_eq_ofNat, BitVec.getLsbD_zero, hmask]
  by_cases h16 : i < 16
  · simp [h16, show i < 24 by omega]
  · simp [h16]

end CommandWords

section Writes

variable {s : State} {rest : List HostInput} {a : BitVec 6} {d : Word} {slot : Slot}

/-- The one error report of the model is the one R111 writes out. -/
theorem raise_eq_reported (c : ErrCause) (s : State) : s.raise c = reported (causeIsIll c) (causeCode c) s := by
  cases hc : causeIsIll c <;> simp [State.raise, reported, firstCause, hc]

theorem exec_wrBad {c : ErrCause} (h : slot.access.writeError = some c) (d : Word) (s : State) :
    exec (.wrBad slot d) s = .next (reported (causeIsIll c) (causeCode c) s) := by
  rw [← raise_eq_reported]
  simp only [exec, execWrBad, h]

theorem step_of_rejected {tp : TPattern} {c : ErrCause} (h : s.inputs = .bus tp :: rest)
    (hd : decode tp = .error c) : step s = .next (reported (causeIsIll c) (causeCode c) (s.withInputs rest)) := by
  rw [step_error h hd, raise_eq_reported]

/-- A command word written to CMD runs as R61 says. -/
theorem step_command_executesAs (h : s.inputs = .bus (tWrite 0 d) :: rest) :
    ExecutesAs d (s.withInputs rest) (step s) := by
  have hdec : decode (tWrite 0 d) = decodeCommand d := decode_tWrite 0 d
  simp only [ExecutesAs, ← fieldOp_toNat, ← fieldRsv_toNat, ← fieldImm_eq_ofNat]
  have hrsv : (fieldRsv d).toNat = 0 ↔ fieldRsv d = 0 := by
    rw [← BitVec.toNat_inj]; rfl
  obtain ⟨hop, e⟩ | ⟨hop, legal, e, hbad, hgood⟩ := commandOf_onNumbers (fieldOp d) (fieldImm d)
  · exact ⟨fun _ => step_of_rejected h (hdec.trans (decodeCommand_of_unknown e)), fun hop' => absurd hop' hop⟩
  · refine ⟨absurd hop, fun _ => ⟨fun hr => ?_, fun hr => ⟨fun hb => ?_, fun hb => ?_⟩⟩⟩
    · exact step_of_rejected h (hdec.trans (decodeCommand_of_reserved e (mt hrsv.2 hr)))
    · obtain rfl := hbad hb
      exact step_of_rejected h (hdec.trans (decodeCommand_of_illegal e (hrsv.1 hr)))
    · obtain rfl := hgood hb
      exact step_ok h (hdec.trans (decodeCommand_of_legal e (hrsv.1 hr)))

theorem step_write_of_writeError {c : ErrCause} (h : s.inputs = .bus (tWrite a d) :: rest)
    (hc : (Slot.ofAddr a).access.writeError = some c) :
    step s = .next (reported (causeIsIll c) (causeCode c) (s.withInputs rest)) := by
  have hdec := decodeWrite_bad (by rw [hc]; rfl) d
  rw [step_ok h ((decode_tWrite a d).trans hdec), exec_wrBad hc]

/-- The addresses of the read-only slots (R21). -/
theorem access_ofAddr_readOnly_iff (a : BitVec 6) :
    (Slot.ofAddr a).access = .readOnly ↔ a.toNat ∈ [1, 4, 5] ∨ (16 ≤ a.toNat ∧ a.toNat ≤ 31) := by
  revert a; decide

/-- The addresses of the reserved slots (R21). -/
theorem access_ofAddr_reserved_iff (a : BitVec 6) :
    (Slot.ofAddr a).access = .reserved ↔ (6 ≤ a.toNat ∧ a.toNat ≤ 15) ∨ 32 ≤ a.toNat := by
  revert a; decide

theorem step_write_xhi (h : s.inputs = .bus (tWrite 2 d) :: rest) : step s = .next ((s.withInputs rest).setXhi d) :=
  step_ok h (decode_tWrite 2 d)

theorem step_write_xlo (h : s.inputs = .bus (tWrite 3 d) :: rest) : step s = .next ((s.withInputs rest).setXlo d) :=
  step_ok h (decode_tWrite 3 d)

end Writes

/-- Settles O5: CMD runs the word, XHI and XLO take it, and every other slot's access type names the error. -/
theorem busWriteFollowsTheAddressCases : Obligations.BusWriteFollowsTheAddressCases := by
  intro a d s rest h
  refine ⟨fun ha => ?_, fun ha => ?_, fun ha => ?_, fun ha => ?_, fun ha => ?_⟩
  · obtain rfl : a = 0 := BitVec.eq_of_toNat_eq ha
    exact step_command_executesAs h
  · obtain rfl : a = 2 := BitVec.eq_of_toNat_eq ha
    exact step_write_xhi h
  · obtain rfl : a = 3 := BitVec.eq_of_toNat_eq ha
    exact step_write_xlo h
  · exact step_write_of_writeError h (congrArg Access.writeError ((access_ofAddr_readOnly_iff a).2 ha))
  · exact step_write_of_writeError h (congrArg Access.writeError ((access_ofAddr_reserved_iff a).2 ha))

/-- Settles O10: each write replaces the one word it names. -/
theorem mantissaWritesReplaceTheWord : Obligations.MantissaWritesReplaceTheWord := fun _ _ => ⟨rfl, rfl⟩

/-- Settles O11: the access type gives the cause, and the report is that of R111. -/
theorem writesOfOtherSlotsRaiseBerr : Obligations.WritesOfOtherSlotsRaiseBerr :=
  fun _ d s => ⟨fun h => exec_wrBad (congrArg Access.writeError h) d s,
    fun h => exec_wrBad (congrArg Access.writeError h) d s⟩

section Reads

/-! The numbers of the slots that carry an index (R21). -/

theorem addr_hl_toNat (i : BitVec 3) : (Slot.hl i).addr.toNat = 16 + 2 * i.toNat := by revert i; decide

theorem addr_hh_toNat (i : BitVec 3) : (Slot.hh i).addr.toNat = 17 + 2 * i.toNat := by revert i; decide

theorem addr_reservedLow_toNat (i : Fin 10) : (Slot.reservedLow i).addr.toNat = 6 + i := by revert i; decide

theorem addr_reservedHigh_toNat (i : Fin 32) : (Slot.reservedHigh i).addr.toNat = 32 + i := by revert i; decide

/-- STATUS is the sum of its fields, each at its place (R22). -/
theorem statusWord_toNat (s : State) : (statusWord s).toNat =
    s.out.toNat + 2 ^ 8 * s.idx.toNat + 2 ^ 16 * s.ill.toNat + 2 ^ 17 * s.berr.toNat + 2 ^ 20 * s.ecause.toNat := by
  simp only [statusWord, toNat_append_eq_add, BitVec.toNat_ofBool, BitVec.toNat_ofNat]
  omega

theorem readNumber_low (s : State) (i : BitVec 3) :
    readNumber (16 + 2 * i.toNat) s = (s.hist i).toNat % 2 ^ 32 := by
  have hi : BitVec.ofNat 3 ((16 + 2 * i.toNat - 16) / 2) = i := by simp
  simp (disch := omega) only [readNumber, if_neg, if_pos, hi]

theorem readNumber_high (s : State) (i : BitVec 3) :
    readNumber (17 + 2 * i.toNat) s = (s.hist i).toNat / 2 ^ 32 := by
  have hi : (17 + 2 * i.toNat - 16) / 2 = i.toNat := by omega
  simp (disch := omega) only [readNumber, if_neg, if_pos, hi, BitVec.ofNat_toNat, BitVec.setWidth_eq]

theorem readNumber_reserved {a : ℕ} (h : (6 ≤ a ∧ a < 16) ∨ 32 ≤ a) (s : State) : readNumber a s = 0 := by
  simp (disch := omega) only [readNumber, if_neg]

/-- Taking an input changes no slot. -/
theorem busRead_withInputs (rest : List HostInput) (slot : Slot) (s : State) :
    busRead slot (s.withInputs rest) = busRead slot s :=
  busRead_of_sameBlock ⟨rfl, rfl, rfl, rfl, rfl, rfl, rfl, rfl, rfl⟩ slot

/-- The word of a slot is the number R41 gives for its address. -/
theorem busRead_toNat (slot : Slot) (s : State) : (busRead slot s).toNat = readNumber slot.addr.toNat s := by
  cases slot with
  | status => exact statusWord_toNat s
  | fresl => exact toNat_lowWord s.fres
  | fresh => exact toNat_highWord s.fres
  | hl i => rw [addr_hl_toNat, readNumber_low, busRead_hl, toNat_lowWord]
  | hh i => rw [addr_hh_toNat, readNumber_high, busRead_hh, toNat_highWord]
  | reservedLow i =>
    rw [addr_reservedLow_toNat, readNumber_reserved (.inl (by omega))]
    rfl
  | reservedHigh i =>
    rw [addr_reservedHigh_toNat, readNumber_reserved (.inr (by omega))]
    rfl
  | _ => rfl

end Reads

/-- Settles O6: the step is the read of the addressed slot, whose word is the number of R41. -/
theorem busReadFollowsTheAddressCases : Obligations.BusReadFollowsTheAddressCases := by
  intro t s rest h hw
  have hword : (busRead (Slot.ofAddr (fieldA t)) s).toNat = readNumber (fieldA t).toNat s := by
    rw [busRead_toNat, Slot.addr_ofAddr]
  rw [← hword, BitVec.ofNat_toNat, BitVec.setWidth_eq]
  refine ⟨?_, BitVec.isLt _⟩
  rw [step_ok h (decode_read hw), ← busRead_withInputs rest]
  rfl

/-- Settles O9: the state is the one with the word given to the host. -/
theorem readGivesTheSlotWord : Obligations.ReadGivesTheSlotWord := fun _ _ => rfl

section ExtendedLoad

variable (e : Vector Byte 10)

theorem assemble_wr_word (slot : Slot) (d : Word) : assemble (.wr slot d.toNat) = some (tWrite slot.addr d) := by
  simp (disch := omega) only [assemble, inImmRange, if_pos, BitVec.ofInt_natCast, BitVec.ofNat_toNat, BitVec.setWidth_eq]

theorem assemble_xcvt_field (imm : BitVec 16) : assemble (.xcvt imm.toNat) = some (tWrite 0 (cWord 0x20 imm)) := by
  have hword : 0x20000000 ||| (BitVec.ofInt 32 imm.toNat &&& 0xFFFF) = cWord 0x20 imm := by
    refine (code_or_operand_eq_cWord 0x20 _).trans ?_
    simp
  simp (disch := omega) only [assemble, inImmRange, if_pos, hword]

/-- The transactions of XLD80 (R65). -/
theorem assemble_xld80 : (Pseudo.xld80 e).expand.map assemble =
    [some (tWrite 2 (extHi e)), some (tWrite 3 (extLo e)), some (tWrite 0 (cWord 0x20 (extImm e)))] := by
  simp only [Pseudo.expand, List.map, assemble_wr_word, assemble_xcvt_field, Slot.addr]

theorem extImm_eq_ofNat : extImm e = BitVec.ofNat 16 (e[0].toNat * 2 ^ 8 + e[1].toNat) := by
  rw [extImm, ← toNat_append_eq_add, BitVec.ofNat_toNat, BitVec.setWidth_eq]

theorem step_xcvt {s : State} {rest : List HostInput} {imm : BitVec 16}
    (h : s.inputs = .bus (tWrite 0 (cWord 0x20 imm)) :: rest) :
    step s = .next ((s.withInputs rest).setFres (convertExt imm s.xhi s.xlo)) :=
  step_ok h ((decode_tWrite 0 _).trans (decodeCommand_xcvt imm))

end ExtendedLoad

/-- Settles O60: three steps, each of which writes the one register its transaction names. -/
theorem loadingTenBytesConvertsThem : Obligations.LoadingTenBytesConvertsThem := by
  intro e s rest
  refine ⟨_, _, _, assemble_xld80 e, fun h => ⟨_, _, _, step_write_xhi h, step_write_xlo rfl, step_xcvt rfl, ?_⟩⟩
  exact ⟨toNat_bigEndian _ _ _ _, toNat_bigEndian _ _ _ _, by rw [← extImm_eq_ofNat]; rfl,
    rfl, rfl, rfl, rfl, rfl, rfl, rfl⟩

end Sys2Proof.Machine
end

/-! ## The encoding: decoder and encoder undo each other, and what an assembler line stands for (R55 to R66) -/

section
namespace Sys2Proof.Machine

section Commands

variable {op : BitVec 8} {imm : BitVec 16} {d : Word} {i : Instr}

/-- The operand of BYP8 is its byte under a zero byte (R58). -/
theorem commandOf_byp8 (b : Byte) : commandOf 0x10 (0#8 ++ b) = some (some (.byp8 b)) := by
  have hhigh : (0#8 ++ b).extractLsb' 8 8 = 0#8 := BitVec.extractLsb'_append_eq_left
  have hlow : (0#8 ++ b).extractLsb' 0 8 = b := BitVec.extractLsb'_append_eq_right
  change some (if _ = 0#8 then some (Instr.byp8 _) else none) = _
  rw [hhigh, hlow, if_pos rfl]

/-- A legal command word decodes to its command (R61). -/
theorem decode_command (h : commandOf op imm = some (some i)) : decode (tWrite 0 (cWord op imm)) = .ok i :=
  (decode_tWrite 0 _).trans
    (decodeCommand_of_legal (by rw [fieldOp_cWord, fieldImm_cWord, h]) (fieldRsv_cWord op imm))

/-- A command is encoded by the operation code and the operand it comes from (R57, R59). -/
theorem encode_of_commandOf (h : commandOf op imm = some (some i)) : encode i = tWrite 0 (cWord op imm) := by
  obtain ⟨rfl, e⟩ | ⟨rfl, e⟩ | ⟨rfl, e⟩ | ⟨rfl, e⟩ | ⟨rfl, e⟩ | ⟨rfl, e⟩ | ⟨rfl, e⟩ | ⟨-, e⟩ := commandOf_cases op imm
  all_goals rw [e] at h
  -- NOP, DRST and ECLR: the operand is 0.
  iterate 3
    · split_ifs at h with himm
      · cases h
        rw [himm]
        rfl
      · cases h
  -- BYP8: the operand's high byte is 0.
  · split_ifs at h with himm
    · cases h
      have hcat : imm.extractLsb' 8 8 ++ imm.extractLsb' 0 8 = imm := BitVec.extractLsb'_append_extractLsb'
      rw [himm] at hcat
      exact congrArg (fun operand => tWrite 0 (cWord 0x10 operand)) hcat
    · cases h
  -- Q16, Q16D and XCVT: every operand.
  iterate 3
    · cases h
      rfl
  · cases h

/-- All that a command word which decodes can be: its reserved field is 0 and its operand is legal (R61). -/
theorem decodeCommand_ok (h : decodeCommand d = .ok i) :
    fieldRsv d = 0 ∧ commandOf (fieldOp d) (fieldImm d) = some (some i) := by
  cases hc : commandOf (fieldOp d) (fieldImm d) with
  | none => exact nomatch (decodeCommand_of_unknown hc).symm.trans h
  | some legal =>
    by_cases hr : fieldRsv d = 0
    · cases legal with
      | none => exact nomatch (decodeCommand_of_illegal hc hr).symm.trans h
      | some j =>
        cases (decodeCommand_of_legal hc hr).symm.trans h
        exact ⟨hr, rfl⟩
    · exact nomatch (decodeCommand_of_reserved hc hr).symm.trans h

theorem encode_of_decodeCommand (h : decodeCommand d = .ok i) : encode i = tWrite 0 d := by
  obtain ⟨hr, hc⟩ := decodeCommand_ok h
  rw [encode_of_commandOf hc, cWord_fields d hr]

/-- A write that decodes is encoded by its slot's address and its data (R55). -/
theorem encode_of_decodeWrite {slot : Slot} (h : decodeWrite slot d = .ok i) : encode i = tWrite slot.addr d := by
  cases slot with
  | cmd => exact encode_of_decodeCommand h
  | _ => cases h; rfl

/-- A write of a slot that accepts none decodes to the write that raises BERR (20_memory.md R42). -/
theorem decode_write_bad {slot : Slot} (h : slot.access.writeError.isSome = true) (d : Word) :
    decode (tWrite slot.addr d) = .ok (.wrBad slot d) := by
  rw [decode_tWrite, Slot.ofAddr_addr, decodeWrite_bad h]

end Commands

/-- Settles O1: each row's pattern decodes through the fields it was built of. -/
theorem decodeOfEncodeIsTheInstruction : Obligations.DecodeOfEncodeIsTheInstruction := by
  intro i hi
  cases i with
  | byp8 b => exact decode_command (commandOf_byp8 b)
  | rd slot => exact decode_tRead slot
  | wrXhi d => exact decode_tWrite 2 d
  | wrXlo d => exact decode_tWrite 3 d
  | wrBad slot d => exact decode_write_bad hi d
  | _ => exact decode_command rfl

/-- Settles O2: a write is its address and data, a read keeps its address only. -/
theorem encodeOfDecodeIsThePattern : Obligations.EncodeOfDecodeIsThePattern := by
  refine fun t i h => ⟨fun hw => ?_, fun hw => ?_⟩
  · rw [← tWrite_fields t hw, decode_tWrite] at h
    rw [encode_of_decodeWrite h, Slot.addr_ofAddr, tWrite_fields t hw]
  · cases (decode_read hw).symm.trans h
    exact congrArg tRead (Slot.addr_ofAddr (fieldA t))

/-- Settles O4: the check order of the decoder is that of R61. -/
theorem commandWordsRunInCheckOrder : Obligations.CommandWordsRunInCheckOrder :=
  fun _ _ _ => step_command_executesAs

section AssemblerLines

variable {lo hi v : Int}

/-! An immediate in its range and one outside it (R64). -/

theorem inImmRange_of_mem (h : lo ≤ v ∧ v ≤ hi) (t : TPattern) : inImmRange lo hi v t = some t := if_pos h

theorem inImmRange_of_outside (h : v < lo ∨ hi < v) (t : TPattern) : inImmRange lo hi v t = none :=
  if_neg (by omega)

/-- The low 16 bits of a 32-bit immediate are the 16-bit immediate. -/
theorem setWidth_ofInt_imm16 (v : Int) : (BitVec.ofInt 32 v).setWidth 16 = BitVec.ofInt 16 v := by
  apply BitVec.eq_of_toNat_eq
  simp only [BitVec.toNat_setWidth, BitVec.toNat_ofInt]
  omega

/-- The word of a command with a 16-bit immediate (R64). -/
theorem code_or_imm16_eq_cWord (op : BitVec 8) (v : Int) :
    (op ++ 0#24) ||| (BitVec.ofInt 32 v &&& 0xFFFF) = cWord op (BitVec.ofInt 16 v) := by
  rw [code_or_operand_eq_cWord, setWidth_ofInt_imm16]

/-- The word of BYP8, whose immediate the assembler does not mask (R64). -/
theorem code_or_imm8_eq_cWord (h : 0 ≤ v ∧ v ≤ 255) :
    (0x10#8 ++ 0#24) ||| BitVec.ofInt 32 v = cWord 0x10#8 (0#8 ++ BitVec.ofInt 8 v) := by
  have hmask : BitVec.ofInt 32 v &&& 0xFFFF = BitVec.ofInt 32 v := by
    apply BitVec.eq_of_toNat_eq
    rw [BitVec.toNat_and]
    refine (Nat.and_two_pow_sub_one_eq_mod _ 16).trans ?_
    rw [BitVec.toNat_ofInt]
    omega
  have himm : BitVec.ofInt 16 v = 0#8 ++ BitVec.ofInt 8 v := by
    apply BitVec.eq_of_toNat_eq
    rw [toNat_append_eq_add, BitVec.toNat_ofInt, BitVec.toNat_ofInt, BitVec.toNat_zero]
    omega
  rw [← hmask, code_or_imm16_eq_cWord, himm]

/-- A line whose immediate lies in its range, and whose word is that of a legal command, decodes to the command. -/
theorem command_in_range_decodes {op : BitVec 8} {imm : BitVec 16} {d : Word} {i : Instr} (h : lo ≤ v ∧ v ≤ hi)
    (hd : d = cWord op imm) (hc : commandOf op imm = some (some i)) :
    ∃ t, inImmRange lo hi v (tWrite 0 d) = some t ∧ decode t = .ok i :=
  ⟨_, inImmRange_of_mem h _, hd ▸ decode_command hc⟩

/-- A write of an immediate in its range is the write of its word to the slot's address. -/
theorem assemble_wr_of_mem (h : 0 ≤ v ∧ v ≤ 0xFFFFFFFF) (slot : Slot) :
    assemble (.wr slot v) = some (tWrite slot.addr (BitVec.ofInt 32 v)) := inImmRange_of_mem h _

end AssemblerLines

/-- Settles O59: an immediate decides by its range whether there is a pattern, and the pattern is that of the slot's
write or of the command's word. -/
theorem assembledLinesDecode : Obligations.AssembledLinesDecode := by
  refine ⟨fun slot => ⟨_, rfl, decode_tRead slot⟩, fun v => ⟨fun h => ?wr, fun h _ => inImmRange_of_outside h _⟩,
    ⟨encode .nop, rfl, decodeOfEncodeIsTheInstruction .nop rfl⟩,
    ⟨encode .drst, rfl, decodeOfEncodeIsTheInstruction .drst rfl⟩,
    ⟨encode .eclr, rfl, decodeOfEncodeIsTheInstruction .eclr rfl⟩,
    fun v => ⟨fun h => ?byp8, fun h => inImmRange_of_outside h _⟩,
    fun v => ⟨fun h => ⟨?q16, ?q16d⟩, fun h => ⟨inImmRange_of_outside h _, inImmRange_of_outside h _⟩⟩,
    fun v => ⟨fun h => ?xcvt, fun h => inImmRange_of_outside h _⟩⟩
  case wr =>
    exact ⟨⟨_, assemble_wr_of_mem h .xhi, decode_tWrite 2 _⟩, ⟨_, assemble_wr_of_mem h .xlo, decode_tWrite 3 _⟩,
      ⟨assemble_wr_of_mem h .cmd, decode_tWrite 0 _⟩,
      fun slot hs => ⟨_, assemble_wr_of_mem h slot, decode_write_bad hs _⟩⟩
  case byp8 => exact command_in_range_decodes h (code_or_imm8_eq_cWord h) (commandOf_byp8 _)
  case q16 => exact command_in_range_decodes h (code_or_imm16_eq_cWord 0x11 v) rfl
  case q16d => exact command_in_range_decodes h (code_or_imm16_eq_cWord 0x12 v) rfl
  case xcvt => exact command_in_range_decodes h (code_or_imm16_eq_cWord 0x20 v) rfl

/-- Settles O3: the eight lines and patterns of R66, evaluated. -/
theorem encodingExamplesDecode : Obligations.EncodingExamplesDecode := by
  unfold Obligations.EncodingExamplesDecode
  decide

end Sys2Proof.Machine
end

/-! ## The control commands: how every command word with an operation code of the map is issued, and NOP, DRST and
ECLR (R57 to R61, R70, R72, R74) -/

section
namespace Sys2Proof.Machine

open Sys2Proof.Claims

section CommandIssue

variable (op rsv : BitVec 8) (imm : BitVec 16)

/-! A command word as a number, its reserved field free, and its fields (R57). -/

theorem commandWord_toNat :
    (op ++ (rsv ++ imm) : Word).toNat = op.toNat * 2 ^ 24 + (rsv.toNat * 2 ^ 16 + imm.toNat) :=
  (toNat_append_eq_add op (rsv ++ imm)).trans (by rw [toNat_append_eq_add])

theorem fieldOp_commandWord : fieldOp (op ++ (rsv ++ imm)) = op := by
  apply BitVec.eq_of_toNat_eq
  rw [fieldOp_toNat, commandWord_toNat]
  omega

theorem fieldRsv_commandWord : fieldRsv (op ++ (rsv ++ imm)) = rsv := by
  apply BitVec.eq_of_toNat_eq
  rw [fieldRsv_toNat, commandWord_toNat]
  omega

theorem fieldImm_commandWord : fieldImm (op ++ (rsv ++ imm)) = imm := by
  apply BitVec.eq_of_toNat_eq
  rw [fieldImm_eq_ofNat, BitVec.toNat_ofNat, commandWord_toNat]
  omega

variable {op} {s : State} {rest : List HostInput} {d : Word} {i : Instr} {operandLegal : Bool}

/-- The checks of a command word whose operation code stands in the map, first the reserved field, then the operand
(R61). -/
theorem step_command_of_commandOf (h : s.inputs = .bus (tWrite 0 d) :: rest)
    (hc : commandOf (fieldOp d) (fieldImm d) = some (if operandLegal then some i else none)) :
    step s = if fieldRsv d ≠ 0 then .next (reported true 2 (s.withInputs rest))
      else if operandLegal then exec i (s.withInputs rest)
      else .next (reported true 3 (s.withInputs rest)) := by
  have hdec : decode (tWrite 0 d) = decodeCommand d := decode_tWrite 0 d
  split_ifs with hr hl
  · exact step_of_rejected h (hdec.trans (decodeCommand_of_reserved hc hr))
  · rw [if_pos hl] at hc
    exact step_ok h (hdec.trans (decodeCommand_of_legal hc (not_not.1 hr)))
  · rw [if_neg hl] at hc
    exact step_of_rejected h (hdec.trans (decodeCommand_of_illegal hc (not_not.1 hr)))

/-- A command is issued as `CommandRule` says when the opcode map gives its code this operand constraint. -/
theorem commandRule_of_commandOf {legal : BitVec 16 → Bool} {make : BitVec 16 → Instr}
    (h : ∀ imm, commandOf op imm = some (if legal imm then some (make imm) else none)) : CommandRule op legal make := by
  intro rsv imm s
  have hc : commandOf (fieldOp (op ++ (rsv ++ imm))) (fieldImm (op ++ (rsv ++ imm))) =
      some (if legal imm then some (make imm) else none) := by
    rw [fieldOp_commandWord, fieldImm_commandWord, h]
  rw [step_command_of_commandOf rfl hc, fieldRsv_commandWord]
  rfl

/-- The constraint of NOP, DRST and ECLR: the operand is 0 (R60). -/
theorem commandRule_of_zero_operand (h : ∀ imm, commandOf op imm = some (if imm = 0 then some i else none)) :
    CommandRule op (fun imm => imm == 0) (fun _ => i) :=
  commandRule_of_commandOf fun imm => by rw [h]; simp only [beq_iff_eq]

end CommandIssue

/-- Settles O29: the operand of NOP is 0, and its execution is the state itself. -/
theorem nopChangesNothing : Obligations.NopChangesNothing :=
  ⟨commandRule_of_zero_operand fun _ => rfl, fun _ => rfl⟩

/-- Settles O30: the operand of DRST is 0, and its execution is the fresh dither state. -/
theorem drstFreshensTheDitherState : Obligations.DrstFreshensTheDitherState :=
  ⟨commandRule_of_zero_operand fun _ => rfl, fun _ => rfl⟩

/-- Settles O31: the operand of ECLR is 0, and its execution clears the error report. -/
theorem eclrClearsTheErrorReport : Obligations.EclrClearsTheErrorReport :=
  ⟨commandRule_of_zero_operand fun _ => rfl, fun _ => rfl⟩

end Sys2Proof.Machine
end

/-! ## XCVT: the scaled words, their sum, and the result by the cases of the exponent field (R80 to R88) -/

section
namespace Sys2Proof.Machine

open Sys2Proof.Claims

section NonnegNumbers

variable {a b : F64} {x : ℚ} {r : F64}

/-- What XCVT works with: +0.0, a positive number or +infinity, and no NaN (R88). -/
structure IsNonnegNumber (b : F64) : Prop where
  sign : f64Sign b = false
  mag_le : f64Mag b ≤ infMag

theorem isNonnegNumber_pack {g : ℕ} (hg : g ≤ infMag) : IsNonnegNumber (packF64 false g) := by
  have h63 : g < 2 ^ 63 := hg.trans_lt (by decide)
  exact ⟨f64Sign_pack false h63, (f64Mag_pack false h63).trans_le hg⟩

theorem roundMag_le_infMag (m : ℕ) (e : ℤ) : roundMag m e ≤ infMag := by
  unfold roundMag
  split
  · exact Nat.zero_le _
  · exact min_le_right _ _

theorem isNonnegNumber_scale64 (m : ℕ) (e : ℤ) : IsNonnegNumber (scale64 m e) :=
  isNonnegNumber_pack (roundMag_le_infMag m e)

theorem IsNonnegNumber.eq_pack (h : IsNonnegNumber b) : b = packF64 false (f64Mag b) := by
  rw [← h.sign, packF64_sign_mag]

/-- The one value of this kind that is not finite is +infinity. -/
theorem IsNonnegNumber.eq_posInf (h : IsNonnegNumber b) (hfin : f64Finite b ≠ true) : b = packF64 false infMag := by
  have hmag : f64Mag b = infMag := le_antisymm h.mag_le (not_lt.1 (mt (f64Finite_iff b).2 hfin))
  rw [h.eq_pack, hmag]

theorem posInf_not_finite : f64Finite (packF64 false infMag) ≠ true := by decide

theorem ofBits_posInf : FVal.ofBits (packF64 false infMag) = .inf false := by decide

theorem IsNonnegNumber.cases (h : IsNonnegNumber b) :
    (∃ m e, FVal.ofBits b = .fin false m e) ∨ b = packF64 false infMag := by
  by_cases hfin : f64Finite b = true
  · obtain ⟨s, m, e, hb, hs, -⟩ := ofBits_fin hfin
    exact .inl ⟨m, e, by rw [hb, hs, h.sign]⟩
  · exact .inr (h.eq_posInf hfin)

theorem f64Add_posInf_left (hb : IsNonnegNumber b) : f64Add (packF64 false infMag) b = packF64 false infMag := by
  rcases hb.cases with ⟨n, g, hb⟩ | rfl
  · simp [f64Add, ofBits_posInf, hb]
  · decide

theorem f64Add_posInf_right (ha : IsNonnegNumber a) : f64Add a (packF64 false infMag) = packF64 false infMag := by
  rcases ha.cases with ⟨m, e, ha⟩ | rfl
  · simp [f64Add, ofBits_posInf, ha]
  · decide

theorem exactSum_nonneg (m : ℕ) (e : ℤ) (n : ℕ) (g : ℤ) : 0 ≤ exactSum false m e false n g := by
  simp only [exactSum, signedInt, Bool.false_eq_true, if_false]
  positivity

/-- The sum of two values of this kind is one of this kind. -/
theorem IsNonnegNumber.add (ha : IsNonnegNumber a) (hb : IsNonnegNumber b) : IsNonnegNumber (f64Add a b) := by
  rcases ha.cases with ⟨m, e, ham⟩ | rfl
  · rcases hb.cases with ⟨n, g, hbn⟩ | rfl
    · rw [f64Add_of_fin ham hbn]
      split
      · exact isNonnegNumber_pack (Nat.zero_le _)
      · rw [decide_eq_false (not_lt.2 (exactSum_nonneg m e n g))]
        exact isNonnegNumber_pack (roundMag_le_infMag _ _)
    · rwa [f64Add_posInf_right ha]
  · rwa [f64Add_posInf_left hb]

theorem IsNonnegNumber.val_eq (h : IsNonnegNumber b) (hfin : f64Finite b = true) : f64Val b = magVal (f64Mag b) := by
  rw [f64Val_eq hfin, h.sign]
  simp

theorem IsNonnegNumber.eq_zero (h : IsNonnegNumber b) (hmag : f64Mag b = 0) : b = 0 := by
  rw [h.eq_pack, hmag]
  rfl

theorem IsNonnegNumber.eq_of_val_eq (ha : IsNonnegNumber a) (hb : IsNonnegNumber b) (hafin : f64Finite a = true)
    (hbfin : f64Finite b = true) (h : f64Val a = f64Val b) : a = b := by
  rw [ha.val_eq hafin, hb.val_eq hbfin] at h
  rw [ha.eq_pack, hb.eq_pack, magVal_strictMono.injective h]

/-- Adding +0.0 rounds nothing. -/
theorem IsNonnegNumber.add_posZero (ha : IsNonnegNumber a) (hfin : f64Finite a = true) : f64Add a 0 = a := by
  have hround := f64Add_isRounded hfin (show f64Finite 0 = true by decide)
  rw [f64Val_zero, add_zero] at hround
  obtain ⟨hsum, hval⟩ := hround.exact hfin rfl
  exact (ha.add ⟨by decide, by decide⟩).eq_of_val_eq ha hsum hfin hval

/-- A value from the overflow bound on rounds to +infinity. -/
theorem IsRounded.eq_posInf (h : IsRounded x r) (hx : overflowBound ≤ x) : r = packF64 false infMag := by
  have hpos : 0 < x := overflowBound_pos.trans_le hx
  rcases h with ⟨-, h⟩ | ⟨hlt, -⟩
  · rw [h, decide_eq_false hpos.not_gt]
  · exact absurd (hx.trans (le_abs_self x)) (not_le.2 hlt)

/-- +infinity is the rounding of every value from the overflow bound on. -/
theorem isRounded_posInf (hx : overflowBound ≤ x) : IsRounded x (packF64 false infMag) := by
  have hpos : 0 < x := overflowBound_pos.trans_le hx
  exact .inl ⟨hx.trans (le_abs_self x), by rw [decide_eq_false hpos.not_gt]⟩

end NonnegNumbers

section LeastUnit

variable {a c : F64} {x : ℚ} {m : ℕ} {e : ℤ}

/-- The least positive binary64 value. -/
def leastUnit : ℚ := 2 ^ (-1074 : ℤ)

theorem leastUnit_pos : 0 < leastUnit := by
  unfold leastUnit
  positivity

theorem half_leastUnit : leastUnit / 2 = 2 ^ (-1075 : ℤ) := by
  rw [leastUnit, div_eq_mul_inv, ← zpow_neg_one, ← zpow_add₀ two_ne_zero]
  rfl

/-- Up to 2^53 the magnitude bits count least units. -/
theorem magVal_eq_mul_leastUnit {n : ℕ} (hn : n ≤ 2 ^ 53) : magVal n = n * leastUnit := by
  have h := magVal_units (j := 0) hn (.inl rfl)
  rwa [zero_mul, zero_add, Nat.cast_zero, zero_sub, ← leastUnit] at h

theorem f64Val_pack_units {n : ℕ} (hn : n ≤ 2 ^ 53) :
    f64Finite (packF64 false n) = true ∧ f64Val (packF64 false n) = n * leastUnit := by
  obtain ⟨hfin, hval⟩ := f64Val_pack false (hn.trans_lt (by decide))
  rw [if_neg Bool.false_ne_true, one_mul, magVal_eq_mul_leastUnit hn] at hval
  exact ⟨hfin, hval⟩

/-- The pattern of the least unit. -/
theorem f64Val_pack_one : f64Finite (packF64 false 1) = true ∧ f64Val (packF64 false 1) = leastUnit := by
  simpa using f64Val_pack_units (n := 1) (by decide)

theorem leastUnit_lt_overflowBound : leastUnit < overflowBound := by
  obtain ⟨hfin, hval⟩ := f64Val_pack_one
  exact hval ▸ (abs_lt.1 (f64Val_lt_overflow hfin)).2

/-- Every finite value is a whole number of least units. -/
theorem f64Val_eq_mul_leastUnit (hc : f64Finite c = true) : ∃ z : ℤ, f64Val c = z * leastUnit := by
  obtain ⟨s, m, e, hc, -, -, he, -⟩ := ofBits_fin hc
  obtain ⟨k, rfl⟩ : ∃ k : ℕ, e = k + -1074 := ⟨(e + 1074).toNat, by omega⟩
  refine ⟨signedInt s m * 2 ^ k, ?_⟩
  rw [f64Val_eq_signedInt hc, zpow_add₀ two_ne_zero, zpow_natCast, ← leastUnit, Int.cast_mul, Int.cast_pow,
    Int.cast_ofNat, mul_assoc]

theorem overflowBound_eq_mul_leastUnit : ∃ z : ℤ, overflowBound = z * leastUnit := by
  refine ⟨(2 ^ 54 - 1) * 2 ^ (970 + 1074), ?_⟩
  rw [overflowBound_eq, show (970 : ℤ) = (970 + 1074 : ℕ) + -1074 by decide, zpow_add₀ two_ne_zero, zpow_natCast,
    ← leastUnit, Int.cast_mul, Int.cast_sub, Int.cast_pow, Int.cast_pow, Int.cast_ofNat, Int.cast_one, ← mul_assoc]

/-- Two different whole numbers of least units are at least one unit apart. -/
theorem leastUnit_le_sub {p q : ℚ} (hp : ∃ z : ℤ, p = z * leastUnit) (hq : ∃ z : ℤ, q = z * leastUnit)
    (h : p < q) : leastUnit ≤ q - p := by
  obtain ⟨y, rfl⟩ := hp
  obtain ⟨z, rfl⟩ := hq
  have hlt : y < z := by exact_mod_cast lt_of_mul_lt_mul_right h leastUnit_pos.le
  have hle : (y : ℚ) + 1 ≤ z := by exact_mod_cast hlt
  rw [← sub_mul]
  exact le_mul_of_one_le_left leastUnit_pos.le (by linarith)

theorem leastUnit_le_abs_sub (ha : f64Finite a = true) (hc : f64Finite c = true) (h : f64Val a ≠ f64Val c) :
    leastUnit ≤ |f64Val c - f64Val a| := by
  have hamul := f64Val_eq_mul_leastUnit ha
  have hcmul := f64Val_eq_mul_leastUnit hc
  rcases h.lt_or_gt with h | h
  · exact (leastUnit_le_sub hamul hcmul h).trans (le_abs_self _)
  · rw [abs_sub_comm]
    exact (leastUnit_le_sub hcmul hamul h).trans (le_abs_self _)

/-- A value at most half a least unit above a pattern with an even last place rounds to that pattern. -/
theorem isRounded_add_of_le_half (ha : f64Finite a = true) (heven : f64Mag a % 2 = 0) (hx0 : 0 ≤ x)
    (hx : x ≤ leastUnit / 2) : IsRounded (f64Val a + x) a := by
  have hpos := leastUnit_pos
  obtain ⟨hlow, hhigh⟩ := abs_lt.1 (f64Val_lt_overflow ha)
  have hgap := leastUnit_le_sub (f64Val_eq_mul_leastUnit ha) overflowBound_eq_mul_leastUnit hhigh
  have herr : |f64Val a - (f64Val a + x)| = x := by rw [sub_add_cancel_left, abs_neg, abs_of_nonneg hx0]
  refine .inr ⟨abs_lt.2 ⟨by linarith, by linarith⟩, ha, fun c hc => ?_, fun _ _ _ _ => heven⟩
  rw [herr]
  rcases eq_or_ne (f64Val a) (f64Val c) with heq | hne
  · rw [← heq, herr]
  · have hfar := leastUnit_le_abs_sub ha hc hne
    have htri := abs_sub_abs_le_abs_sub (f64Val c - f64Val a) x
    rw [abs_of_nonneg hx0, sub_sub] at htri
    linarith

/-- A normal pattern whose value has fewer than 53 bits has an even last place. -/
theorem f64Mag_even_of_short (ha : f64Finite a = true) (hnormal : 2 ^ 52 ≤ f64Mag a)
    (hval : |f64Val a| = m * 2 ^ e) (hm : m < 2 ^ 52) : f64Mag a % 2 = 0 := by
  obtain ⟨j, n, hmag, -, hn, hmagval⟩ := magVal_decompose (f64Mag a)
  have hn : 2 ^ 52 ≤ n := by omega
  rw [abs_f64Val ha, hmagval] at hval
  rcases le_or_gt e (j - 1074) with hle | hgt
  · obtain ⟨k, hk⟩ : ∃ k : ℕ, (j - 1074 : ℤ) = k + e := ⟨(j - 1074 - e).toNat, by omega⟩
    rw [hk, zpow_add₀ two_ne_zero, zpow_natCast, ← mul_assoc] at hval
    have hshort : n * 2 ^ k = m := by exact_mod_cast mul_right_cancel₀ (by positivity) hval
    have := Nat.le_mul_of_pos_right n (Nat.two_pow_pos k)
    omega
  · obtain ⟨k, hk⟩ : ∃ k : ℕ, e = (k + 1 : ℕ) + (j - 1074 : ℤ) := ⟨(e - (j - 1074) - 1).toNat, by omega⟩
    rw [hk, zpow_add₀ two_ne_zero, zpow_natCast, ← mul_assoc] at hval
    have hshifted : n = m * 2 ^ (k + 1) := by exact_mod_cast mul_right_cancel₀ (by positivity) hval
    rw [pow_succ, ← mul_assoc] at hshifted
    omega

end LeastUnit

section Scaling

variable {m : ℕ} {e : ℤ}

/-- The word `hi` weighs `2 ^ 32` times what the word `lo` weighs (R81). -/
theorem two_pow_mul_zpow (e : ℤ) : (2 : ℚ) ^ 32 * 2 ^ e = 2 ^ (e + 32) := by
  rw [zpow_add₀ two_ne_zero, mul_comm]
  rfl

/-- A mantissa word fits 32 bits above its exponent. -/
theorem natCast_mul_zpow_lt (hm : m < 2 ^ 32) (e : ℤ) : (m : ℚ) * 2 ^ e < 2 ^ (e + 32) := by
  have hm : (m : ℚ) < 2 ^ 32 := by exact_mod_cast hm
  rw [← two_pow_mul_zpow]
  exact mul_lt_mul_of_pos_right hm (by positivity)

theorem scale64_zero (e : ℤ) : scale64 0 e = 0 := rfl

theorem f64Add_zero_zero : f64Add 0 0 = 0 := by decide

theorem scale64_eq_posInf (h : overflowBound ≤ m * 2 ^ e) : scale64 m e = packF64 false infMag :=
  (scale64_isRounded m e).eq_posInf h

theorem scale64_finite_iff : f64Finite (scale64 m e) = true ↔ (m : ℚ) * 2 ^ e < overflowBound := by
  constructor
  · intro hfin
    by_contra hover
    rw [scale64_eq_posInf (not_lt.1 hover)] at hfin
    exact posInf_not_finite hfin
  · intro hlt
    exact (scale64_isRounded m e).finite (by rwa [abs_of_nonneg (by positivity)])

theorem f64Val_scale64 (h : f64Finite (scale64 m e) = true) : f64Val (scale64 m e) = magVal (f64Mag (scale64 m e)) :=
  (isNonnegNumber_scale64 m e).val_eq h

/-- A finite scaled value is no farther from the exact one than any other finite value. -/
theorem scale64_nearest {c : F64} (h : f64Finite (scale64 m e) = true) (hc : f64Finite c = true) :
    |f64Val (scale64 m e) - m * 2 ^ e| ≤ |f64Val c - m * 2 ^ e| := by
  rcases scale64_isRounded m e with ⟨-, hinf⟩ | ⟨-, -, hnear, -⟩
  · rw [hinf, decide_eq_false (not_lt.2 (by positivity))] at h
    exact absurd h posInf_not_finite
  · exact hnear c hc

/-- What is below half of the least unit rounds to +0.0 (R82, R86). -/
theorem scale64_eq_zero (h : (m : ℚ) * 2 ^ e < leastUnit / 2) : scale64 m e = 0 := by
  have hpos := leastUnit_pos
  have hx0 : 0 ≤ (m : ℚ) * 2 ^ e := by positivity
  have hfin : f64Finite (scale64 m e) = true := scale64_finite_iff.2 (by linarith [leastUnit_lt_overflowBound])
  have hnear := scale64_nearest hfin (show f64Finite 0 = true by decide)
  rw [f64Val_zero, zero_sub, abs_neg, abs_of_nonneg hx0] at hnear
  have hlt : magVal (f64Mag (scale64 m e)) < magVal 1 := by
    rw [magVal_eq_mul_leastUnit (n := 1) (by decide), Nat.cast_one, one_mul, ← f64Val_scale64 hfin]
    linarith [(abs_le.1 hnear).2]
  have hmag : f64Mag (scale64 m e) = 0 := Nat.lt_one_iff.1 (magVal_strictMono.lt_iff_lt.1 hlt)
  exact (isNonnegNumber_scale64 m e).eq_zero hmag

/-- What rounds to zero is at most half of the least unit. -/
theorem le_half_of_scale64_mag_zero (h : f64Mag (scale64 m e) = 0) : (m : ℚ) * 2 ^ e ≤ leastUnit / 2 := by
  have hfin : f64Finite (scale64 m e) = true := (f64Finite_iff _).2 (h.trans_lt (by decide))
  obtain ⟨hone, honeval⟩ := f64Val_pack_one
  have hx0 : 0 ≤ (m : ℚ) * 2 ^ e := by positivity
  have hnear := scale64_nearest hfin hone
  rw [f64Val_scale64 hfin, h, magVal_zero, honeval, zero_sub, abs_neg, abs_of_nonneg hx0] at hnear
  rcases le_abs.1 hnear with h | h
  · linarith
  · linarith [leastUnit_pos]

/-- Below the overflow bound, 53 bits of at least the least unit are the value of some pattern. -/
theorem exists_f64Val_of_lt_overflow (hm : m < 2 ^ 53) (he : -1074 ≤ e) (hx : (m : ℚ) * 2 ^ e < overflowBound) :
    ∃ c, f64Finite c = true ∧ f64Val c = m * 2 ^ e := by
  rcases le_or_gt e 971 with hle | hgt
  · simpa using exists_f64Val m e (by simpa using hm) he hle
  · obtain ⟨k, rfl⟩ : ∃ k : ℕ, e = k + 971 := ⟨(e - 971).toNat, by omega⟩
    have hsplit : (m : ℚ) * 2 ^ (k + 971 : ℤ) = (m * 2 ^ k : ℕ) * 2 ^ (971 : ℤ) := by
      rw [zpow_add₀ two_ne_zero, zpow_natCast, ← mul_assoc, Nat.cast_mul, Nat.cast_pow, Nat.cast_ofNat]
    have hshort : m * 2 ^ k < 2 ^ 53 := by
      rw [hsplit, overflowBound_eq, show (971 : ℤ) = 1 + 970 by decide, zpow_add₀ two_ne_zero, zpow_one,
        ← mul_assoc] at hx
      have hlt := lt_of_mul_lt_mul_right hx (by positivity)
      have hlt : m * 2 ^ k * 2 + 1 < 2 ^ 54 := by exact_mod_cast lt_sub_iff_add_lt.1 hlt
      omega
    rw [hsplit]
    have hexists := exists_f64Val (m * 2 ^ k : ℕ) 971 hshort (by decide) le_rfl
    rwa [Int.cast_natCast] at hexists

/-- A finite scaled value that is not rounded in the subnormal range is exact (R84). -/
theorem scale64_exact (hm : m < 2 ^ 53) (he : -1074 ≤ e) (hfin : f64Finite (scale64 m e) = true) :
    f64Val (scale64 m e) = m * 2 ^ e := by
  obtain ⟨c, hc, hcval⟩ := exists_f64Val_of_lt_overflow hm he (scale64_finite_iff.1 hfin)
  exact ((scale64_isRounded m e).exact hc hcval).2

/-- A mantissa word with a normal scaled value is scaled by at least the least unit. -/
theorem exponent_of_scale64_normal (hm : m < 2 ^ 32) (hnormal : 2 ^ 52 ≤ f64Mag (scale64 m e))
    (hfin : f64Finite (scale64 m e) = true) : -1074 ≤ e := by
  by_contra hlt
  obtain ⟨hc, hcval⟩ := f64Val_pack_units (n := 2 ^ 32) (by decide)
  have hx : (m : ℚ) * 2 ^ e ≤ (2 ^ 32 : ℕ) * leastUnit :=
    mul_le_mul (Nat.cast_le.2 hm.le) (zpow_le_zpow_right₀ one_le_two (by omega)) (by positivity) (by positivity)
  have hupper := (scale64_isRounded m e).le hfin hc (hx.trans_eq hcval.symm)
  have hlower := magVal_strictMono.monotone hnormal
  rw [← f64Val_scale64 hfin, magVal_eq_mul_leastUnit (by decide)] at hlower
  rw [hcval] at hupper
  exact absurd (le_of_mul_le_mul_right (hlower.trans hupper) leastUnit_pos) (by norm_num)

theorem scale64_exact_of_normal (hm : m < 2 ^ 32) (hnormal : 2 ^ 52 ≤ f64Mag (scale64 m e))
    (hfin : f64Finite (scale64 m e) = true) : f64Val (scale64 m e) = m * 2 ^ e :=
  scale64_exact (hm.trans (by decide)) (exponent_of_scale64_normal hm hnormal hfin) hfin

end Scaling

section ConversionCases

variable {imm : BitVec 16} {xhi xlo : Word}

theorem exec_xcvt (imm : BitVec 16) (s : State) :
    exec (.xcvt imm) s = .next { s with fres := convertExt imm s.xhi s.xlo } := rfl

theorem convertExt_of_saturating (xhi xlo : Word) : convertExt 0x7FFF xhi xlo = extSat := rfl

/-- Outside the saturation case the result is the sum of the scaled words, in the zero case too (R81, R82). -/
theorem convertExt_eq_add (h : imm.toInt ≠ 32767) :
    convertExt imm xhi xlo = f64Add (scaledHi imm xhi) (scaledLo imm xlo) := by
  have hexp : imm.toInt - 16383 - 31 = imm.toInt - 16414 := by omega
  have hexp' : imm.toInt - 16414 - 32 = imm.toInt - 16446 := by omega
  simp only [convertExt, sext16, zext32, if_neg h, hexp, hexp', scaledHi, scaledLo]
  split
  next hzero =>
    obtain ⟨-, hhi, hlo⟩ := hzero
    rw [hhi, hlo, scale64_zero, scale64_zero, f64Add_zero_zero]
  next => rfl

theorem extSat_cases : extSat = maxFinite ∨ extSat = packF64 false infMag := by
  cases h : Config.extSatIsInfinity <;> simp [extSat, h]

theorem isNonnegNumber_extSat : IsNonnegNumber extSat := by
  rcases extSat_cases with h | h <;> rw [h]
  · exact ⟨by decide, by decide⟩
  · exact isNonnegNumber_pack le_rfl

/-- The result of XCVT is +0.0, a positive number or +infinity (R88). -/
theorem isNonnegNumber_convertExt (imm : BitVec 16) (xhi xlo : Word) : IsNonnegNumber (convertExt imm xhi xlo) := by
  by_cases hsat : imm.toInt = 32767
  · obtain rfl : imm = 0x7FFF := BitVec.eq_of_toInt_eq hsat
    rw [convertExt_of_saturating]
    exact isNonnegNumber_extSat
  · rw [convertExt_eq_add hsat]
    exact (isNonnegNumber_scale64 _ _).add (isNonnegNumber_scale64 _ _)

/-- A mantissa word at an exponent of -1107 or less is scaled below half of the least unit. -/
theorem word_scaled_lt_half (w : Word) {e : ℤ} (he : e ≤ -1107) : (w.toNat : ℚ) * 2 ^ e < leastUnit / 2 := by
  rw [half_leastUnit]
  exact (natCast_mul_zpow_lt w.isLt e).trans_le (zpow_le_zpow_right₀ one_le_two (by omega))

/-- With an exponent field of at most 0 the result is +0.0, whatever the mantissa (R82, R86). -/
theorem convertExt_of_nonpos (h : imm.toInt ≤ 0) : convertExt imm xhi xlo = 0 := by
  have hhi : scaledHi imm xhi = 0 := scale64_eq_zero (word_scaled_lt_half xhi (by omega))
  have hlo : scaledLo imm xlo = 0 := scale64_eq_zero (word_scaled_lt_half xlo (by omega))
  rw [convertExt_eq_add (by omega), hhi, hlo, f64Add_zero_zero]

/-- A large product overflows by itself (R87). -/
theorem scaledHi_eq_posInf (h : (2 : ℚ) ^ 1024 ≤ xhi.toNat * 2 ^ (imm.toInt - 16414)) :
    scaledHi imm xhi = packF64 false infMag :=
  scale64_eq_posInf ((sub_le_self _ (by positivity)).trans h)

theorem two_pow_le_scaledHi (himm : 17407 ≤ imm.toInt) (hhi : 2 ^ 31 ≤ xhi.toNat) :
    (2 : ℚ) ^ 1024 ≤ xhi.toNat * 2 ^ (imm.toInt - 16414) := by
  have hhi : (2 : ℚ) ^ 31 ≤ xhi.toNat := by exact_mod_cast hhi
  calc (2 : ℚ) ^ 1024 = 2 ^ 31 * 2 ^ 993 := pow_add 2 31 993
    _ = 2 ^ 31 * 2 ^ (993 : ℤ) := congrArg _ (zpow_natCast 2 993).symm
    _ ≤ (xhi.toNat : ℚ) * 2 ^ (imm.toInt - 16414) :=
        mul_le_mul hhi (zpow_le_zpow_right₀ one_le_two (by omega)) (by positivity) (by positivity)

end ConversionCases

section CorrectRounding

variable {hi lo : ℕ} {e : ℤ}

/-- Beside a value of at least the least unit, a scaled `hi` is 0 only for the word 0. -/
theorem hi_eq_zero_of_scaled (hlo : lo < 2 ^ 32) (hx : leastUnit ≤ hi * 2 ^ e + lo * 2 ^ (e - 32))
    (h : f64Mag (scale64 hi e) = 0) : hi = 0 := by
  by_contra hne
  have hone : (1 : ℚ) ≤ hi := by exact_mod_cast Nat.one_le_iff_ne_zero.2 hne
  have hle := le_mul_of_one_le_left (show (0 : ℚ) ≤ 2 ^ e by positivity) hone
  have hlow := natCast_mul_zpow_lt hlo (e - 32)
  rw [sub_add_cancel] at hlow
  linarith [le_half_of_scale64_mag_zero h]

/-- Unless it is rounded in the subnormal range, the scaled `hi` is exact (R84). -/
theorem scaledHi_exact (hhi : hi < 2 ^ 32) (hlo : lo < 2 ^ 32)
    (hx : leastUnit ≤ hi * 2 ^ e + lo * 2 ^ (e - 32))
    (h : f64Mag (scale64 hi e) = 0 ∨ 2 ^ 52 ≤ f64Mag (scale64 hi e)) (hfin : f64Finite (scale64 hi e) = true) :
    f64Val (scale64 hi e) = hi * 2 ^ e := by
  rcases h with h | h
  · obtain rfl := hi_eq_zero_of_scaled hlo hx h
    rw [scale64_zero, f64Val_zero, Nat.cast_zero, zero_mul]
  · exact scale64_exact_of_normal hhi h hfin

/-- A `lo` that rounds to zero is at most half of the last place of `hi`, and a tie keeps `hi`, whose last place is
even (R85). -/
theorem isRounded_of_lo_rounds_to_zero (hhi : hi < 2 ^ 32) (hnormal : 2 ^ 52 ≤ f64Mag (scale64 hi e))
    (hfin : f64Finite (scale64 hi e) = true) (h : f64Mag (scale64 lo (e - 32)) = 0) :
    IsRounded (hi * 2 ^ e + lo * 2 ^ (e - 32)) (f64Add (scale64 hi e) (scale64 lo (e - 32))) := by
  have hexact := scale64_exact_of_normal hhi hnormal hfin
  have hb : scale64 lo (e - 32) = 0 := (isNonnegNumber_scale64 lo (e - 32)).eq_zero h
  have hsum := (isNonnegNumber_scale64 hi e).add_posZero hfin
  have heven : f64Mag (scale64 hi e) % 2 = 0 := by
    refine f64Mag_even_of_short hfin hnormal (m := hi) (e := e) ?_ (hhi.trans (by decide))
    rw [hexact, abs_of_nonneg (by positivity)]
  have hround := isRounded_add_of_le_half hfin heven (by positivity) (le_half_of_scale64_mag_zero h)
  rwa [hexact, ← hsum, ← hb] at hround

/-- The sum of the scaled words is the exact sum rounded once, when neither word is rounded in the subnormal range: by
which of them are infinite, then by which are zero (R85). -/
theorem scaledSum_isRounded (hhi : hi < 2 ^ 32) (hlo : lo < 2 ^ 32)
    (hx : leastUnit ≤ hi * 2 ^ e + lo * 2 ^ (e - 32))
    (ha : f64Mag (scale64 hi e) = 0 ∨ 2 ^ 52 ≤ f64Mag (scale64 hi e))
    (hb : f64Mag (scale64 lo (e - 32)) = 0 ∨ 2 ^ 52 ≤ f64Mag (scale64 lo (e - 32))) :
    IsRounded (hi * 2 ^ e + lo * 2 ^ (e - 32)) (f64Add (scale64 hi e) (scale64 lo (e - 32))) := by
  have hA : 0 ≤ (hi : ℚ) * 2 ^ e := by positivity
  have hB : 0 ≤ (lo : ℚ) * 2 ^ (e - 32) := by positivity
  by_cases hafin : f64Finite (scale64 hi e) = true
  · by_cases hbfin : f64Finite (scale64 lo (e - 32)) = true
    · have hexact := scaledHi_exact hhi hlo hx ha hafin
      rcases hb with hb | hb
      · rcases ha with ha | ha
        · obtain rfl := hi_eq_zero_of_scaled hlo hx ha
          rw [Nat.cast_zero, zero_mul, zero_add] at hx
          linarith [le_half_of_scale64_mag_zero hb, leastUnit_pos]
        · exact isRounded_of_lo_rounds_to_zero hhi ha hafin hb
      · rw [← hexact, ← scale64_exact_of_normal hlo hb hbfin]
        exact f64Add_isRounded hafin hbfin
    · have hover := not_lt.1 (mt scale64_finite_iff.2 hbfin)
      rw [(isNonnegNumber_scale64 _ _).eq_posInf hbfin, f64Add_posInf_right (isNonnegNumber_scale64 _ _)]
      exact isRounded_posInf (by linarith)
  · have hover := not_lt.1 (mt scale64_finite_iff.2 hafin)
    rw [(isNonnegNumber_scale64 _ _).eq_posInf hafin, f64Add_posInf_left (isNonnegNumber_scale64 _ _)]
    exact isRounded_posInf (by linarith)

/-- The value of the mantissa by its two words (R85). -/
theorem mantissa_scaled (hi lo : ℕ) (e : ℤ) :
    ((hi * 2 ^ 32 + lo : ℕ) : ℚ) * 2 ^ (e - 32) = hi * 2 ^ e + lo * 2 ^ (e - 32) := by
  rw [Nat.cast_add, Nat.cast_mul, Nat.cast_pow, Nat.cast_ofNat, add_mul, mul_assoc, two_pow_mul_zpow, sub_add_cancel]

end CorrectRounding

/-- Settles O53: both words are scaled by far less than the least unit. -/
theorem xcvtOfZeroExponentIsZero : Obligations.XcvtOfZeroExponentIsZero := by
  intro s
  rw [exec_xcvt, convertExt_of_nonpos (by decide)]

/-- Settles O55: an exponent field with bit 15 set is a negative integer, which scales both words to +0.0. -/
theorem xcvtOfNegativeExponentIsZero : Obligations.XcvtOfNegativeExponentIsZero := by
  intro imm s hsign
  have hneg : imm.toInt < 0 := BitVec.toInt_neg_of_msb_true hsign
  rw [exec_xcvt, convertExt_of_nonpos hneg.le]

/-- Settles O56: an infinite scaled `hi` stays infinite in the sum, and a sum from the overflow bound on rounds to
+infinity; the two examples of R87 are evaluated. -/
theorem xcvtOverflowsToInfinity : Obligations.XcvtOverflowsToInfinity := by
  refine ⟨fun imm xhi xlo hsat => ⟨fun h => ?_, fun ha hb hsum => ?_⟩, by decide +kernel, by decide +kernel⟩
  · have hhi := scaledHi_eq_posInf (h.elim (fun ⟨himm, hhi⟩ => two_pow_le_scaledHi himm hhi) id)
    refine ⟨hhi, ?_⟩
    rw [convertExt_eq_add hsat, hhi]
    exact f64Add_posInf_left (isNonnegNumber_scale64 _ _)
  · rw [convertExt_eq_add hsat]
    exact (f64Add_isRounded ha hb).eq_posInf hsum

/-- Settles O57: the scaled words carry no sign and are no NaN, their sum keeps that, and so does EXT_SAT. -/
theorem xcvtResultIsNeverNegativeOrNaN : Obligations.XcvtResultIsNeverNegativeOrNaN := by
  intro imm xhi xlo
  obtain ⟨hsign, hmag⟩ := isNonnegNumber_convertExt imm xhi xlo
  exact ⟨hsign, hmag⟩

/-- Settles O58: outside the subnormal range only the sum rounds, or a `lo` that cannot move it; the example of R85 is
evaluated. -/
theorem xcvtIsCorrectlyRounded : Obligations.XcvtIsCorrectlyRounded := by
  refine ⟨fun imm xhi xlo hsat hx ha hb => ?_, by decide +kernel, by decide +kernel⟩
  have hexp : imm.toInt - 16446 = imm.toInt - 16414 - 32 := by omega
  have hleast : leastUnit ≤ 2 ^ (-1022 : ℤ) := zpow_le_zpow_right₀ one_le_two (by decide)
  rw [hexp, mantissa_scaled] at hx ⊢
  rw [scaledLo, hexp] at hb
  rw [convertExt_eq_add hsat, scaledLo, hexp]
  exact scaledSum_isRounded xhi.isLt xlo.isLt (hleast.trans hx) ha hb

/-- Settles O52: every operand is legal, and the three cases are those of `convertExt`. -/
theorem xcvtWritesTheConversion : Obligations.XcvtWritesTheConversion :=
  ⟨commandRule_of_commandOf fun _ => rfl, exec_xcvt⟩

/-- Settles O54: by the value of the open parameter, which the conversion passes on. -/
theorem xcvtSaturates : Obligations.XcvtSaturates :=
  ⟨extSat_cases, fun s => by rw [exec_xcvt, convertExt_of_saturating]⟩

end Sys2Proof.Machine
end

/-! ## The sample commands: BYP8, Q16 and Q16D, and Q16D over a list of samples as a filter (R90 to R106) -/

section
namespace Sys2Proof.Machine

open Sys2Proof.Claims

section SampleValues

variable {x : ℚ} {r : F64}

/-- A result of a few 256ths is not changed by rounding. -/
theorem IsRounded.exact_of_256ths (h : IsRounded x r) {z : ℤ} (hz : z.natAbs < 2 ^ 53) (hx : x = z / 256) :
    f64Finite r = true ∧ f64Val r = z / 256 := by
  obtain ⟨c, hc, hcval⟩ := exists_f64Val z (-8) hz (by decide) (by decide)
  obtain ⟨hfin, hval⟩ := h.exact hc (by rw [hcval, hx]; norm_num [div_eq_mul_inv])
  exact ⟨hfin, hval.trans hx⟩

/-- `v + 0.5` is exact (R95). -/
theorem sampleValue_add_half_exact (imm : BitVec 16) : f64Finite (f64Add (sampleValue imm) fHalf) = true ∧
    f64Val (f64Add (sampleValue imm) fHalf) = ((imm.toInt + 32896 : ℤ) : ℚ) / 256 := by
  have hlow := BitVec.le_toInt imm
  have hhigh := BitVec.toInt_lt (x := imm)
  obtain ⟨hv, hvval⟩ := sampleValue_exact imm
  obtain ⟨hhalf, hhalfval⟩ := f64Val_fHalf
  refine (f64Add_isRounded hv hhalf).exact_of_256ths (by omega) ?_
  rw [hvval, hhalfval]
  push_cast
  ring

/-- `round(v)` is the whole part of `(s + 32896) / 256` (R95). -/
theorem roundHalfUp_sampleValue (imm : BitVec 16) : f64Finite (roundHalfUp (sampleValue imm)) = true ∧
    f64Val (roundHalfUp (sampleValue imm)) = ((imm.toInt + 32896) / 256 : ℤ) := by
  obtain ⟨hsum, hsumval⟩ := sampleValue_add_half_exact imm
  obtain ⟨hfin, hval⟩ := floor64_exact hsum
  have hfloor := Rat.floor_intCast_div_natCast (imm.toInt + 32896) 256
  rw [hsumval] at hval
  exact ⟨hfin, hval.trans (congrArg _ hfloor)⟩

theorem clampbyte_roundHalfUp_sampleValue (imm : BitVec 16) : clampbyte (roundHalfUp (sampleValue imm)) =
    BitVec.ofNat 8 (min 255 ((imm.toInt + 32896).toNat / 2 ^ 8)) := by
  obtain ⟨hfin, hval⟩ := roundHalfUp_sampleValue imm
  have hshift : ((imm.toInt + 32896) / 256).toNat = (imm.toInt + 32896).toNat / 2 ^ 8 := by omega
  rw [clampbyte_of_integer hfin hval, hshift]

/-- The error `v - round(v)` is exact and lies in [-0.5, 0.5) (R103). -/
theorem nominalError_exact (imm : BitVec 16) :
    f64Finite (f64Sub (sampleValue imm) (roundHalfUp (sampleValue imm))) = true ∧
      f64Val (f64Sub (sampleValue imm) (roundHalfUp (sampleValue imm))) =
        f64Val (sampleValue imm) - f64Val (roundHalfUp (sampleValue imm)) ∧
      f64Val (sampleValue imm) - f64Val (roundHalfUp (sampleValue imm)) ∈ Set.Ico (-(1 / 2) : ℚ) (1 / 2) := by
  obtain ⟨hv, hvval⟩ := sampleValue_exact imm
  obtain ⟨hr, hrval⟩ := roundHalfUp_sampleValue imm
  set q := (imm.toInt + 32896) / 256 with hq
  have hdiff : f64Val (sampleValue imm) - f64Val (roundHalfUp (sampleValue imm)) =
      ((imm.toInt + 32768 - 256 * q : ℤ) : ℚ) / 256 := by
    rw [hvval, hrval]
    push_cast
    ring
  obtain ⟨hfin, hval⟩ := (f64Sub_isRounded hv hr).exact_of_256ths (by omega) hdiff
  have hlow : (-128 : ℚ) ≤ (imm.toInt + 32768 - 256 * q : ℤ) := by exact_mod_cast (by omega)
  have hhigh : ((imm.toInt + 32768 - 256 * q : ℤ) : ℚ) < 128 := by exact_mod_cast (by omega)
  refine ⟨hfin, hval.trans hdiff.symm, ?_⟩
  rw [hdiff]
  constructor <;> linarith

end SampleValues

section FreshHistory

variable {a w : F64} {hist : BitVec 3 → F64} {idx : BitVec 3}

theorem isNonnegNumber_of_pos (hfin : f64Finite a = true) (hpos : 0 < f64Val a) : IsNonnegNumber a := by
  refine ⟨?_, ((f64Finite_iff a).1 hfin).le⟩
  by_contra hsign
  rw [f64Val_eq hfin, if_pos (Bool.eq_true_of_not_eq_false hsign)] at hpos
  linarith [magVal_nonneg (f64Mag a)]

/-- The least sample is +0.0, not -0.0 (R90). -/
theorem sampleValue_least : sampleValue 0x8000 = 0 := by decide +kernel

theorem isNonnegNumber_sampleValue (imm : BitVec 16) : IsNonnegNumber (sampleValue imm) := by
  by_cases hleast : imm = 0x8000
  · rw [hleast, sampleValue_least]
    exact ⟨by decide, by decide⟩
  · have hlow := BitVec.le_toInt imm
    have hne : imm.toInt ≠ -32768 := fun h => hleast (BitVec.eq_of_toInt_eq h)
    have hpos : (-32768 : ℚ) < imm.toInt := by exact_mod_cast (by omega : -32768 < imm.toInt)
    obtain ⟨hfin, hval⟩ := sampleValue_exact imm
    exact isNonnegNumber_of_pos hfin (by rw [hval]; linarith)

/-- Adding a zero of either sign leaves a value without a sign as it is, +0.0 included. -/
theorem IsNonnegNumber.add_signedZero (ha : IsNonnegNumber a) (hfin : f64Finite a = true) (neg : Bool) :
    f64Add a (packF64 neg 0) = a := by
  by_cases hmag : f64Mag a = 0
  · rw [ha.eq_zero hmag]
    cases neg <;> decide
  · obtain ⟨hz, hzval⟩ := f64Val_pack neg (g := 0) (by decide)
    rw [magVal_zero, mul_zero] at hzval
    obtain ⟨hsum, hsumval⟩ := (f64Add_isRounded hfin hz).exact hfin (by rw [hzval, add_zero])
    rw [hzval, add_zero] at hsumval
    have hne : f64Val a ≠ 0 := by
      rw [ha.val_eq hfin, ← magVal_zero]
      exact magVal_strictMono.injective.ne hmag
    exact f64Val_inj hsum hfin hsumval (hsumval ▸ hne)

/-- A weighted error of +0.0 is a zero of the weight's sign (R103). -/
theorem f64Mul_zero_left (hw : f64Finite w = true) : f64Mul 0 w = packF64 (f64Sign w) 0 := by
  obtain ⟨t, n, g, hw, rfl, -⟩ := ofBits_fin hw
  have hzero : FVal.ofBits 0 = .fin false 0 (-1074) := by decide
  simp only [f64Mul, hzero, hw, zero_mul, Bool.false_bne]
  rfl

/-- On a history of +0.0 no tap moves the sum (R103). -/
theorem foldl_taps_of_zero_history (hhist : ∀ i, hist i = 0) (ha : IsNonnegNumber a) (hfin : f64Finite a = true)
    (ts : List (BitVec 3 × F64)) (hts : ts ⊆ taps) :
    ts.foldl (fun acc tap => f64Add acc (f64Mul (hist (idx - tap.1)) tap.2)) a = a := by
  induction ts with
  | nil => rfl
  | cons tap ts ih =>
    obtain ⟨htap, hts⟩ := List.cons_subset.1 hts
    rw [List.foldl_cons, hhist, f64Mul_zero_left (abs_tap_le htap).1, ha.add_signedZero hfin, ih hts]

theorem ditherInput_of_zero_history {s : State} (hs : ∀ i, s.hist i = 0) (imm : BitVec 16) :
    ditherInput imm s = sampleValue imm :=
  foldl_taps_of_zero_history hs (isNonnegNumber_sampleValue imm) (sampleValue_exact imm).1 taps (List.Subset.refl _)

/-- Without noise the rounded result of a sample is that of Q16 (R103). -/
theorem ditherResult_of_zero_noise (imm : BitVec 16) {p : NoisePair} {neg : Bool}
    (hp : f64Add p.u1 p.u2 = packF64 neg 0) : ditherResult (sampleValue imm) p = roundHalfUp (sampleValue imm) := by
  rw [ditherResult, hp, (isNonnegNumber_sampleValue imm).add_signedZero (sampleValue_exact imm).1]

end FreshHistory

section DitherExecution

variable {s t u : State} {p : NoisePair} {imm : BitVec 16} {i : Instr}

theorem exec_q16d_of_draw (h : drawNoise s = some (p, t)) :
    exec (.q16d imm) s = .next (ditherWrite (ditherInput imm s) (ditherResult (ditherInput imm s) p) t) := by
  simp only [exec, execQ16d, h]

/-- A draw succeeds when the first supplied pair, if there is one, lies in the range (R12). -/
theorem exists_drawNoise (h : ∀ p, s.noise.head? = some p → p.inRange = true) :
    ∃ p, p.inRange = true ∧ (s.noise = [] ∨ s.noise.head? = some p) ∧
      drawNoise s = some (p, { s with noise := s.noise.tail, drawn := s.drawn + 1 }) := by
  cases hdraw : drawNoise s with
  | none =>
    obtain ⟨p, rest, hn, hp⟩ := drawNoise_none.1 hdraw
    have hin := h p (by rw [hn, List.head?_cons])
    rw [hp] at hin
    cases hin
  | some drawn =>
    obtain ⟨p, s1⟩ := drawn
    obtain ⟨hp, rfl, hfirst⟩ := drawNoise_some hdraw
    exact ⟨p, hp, hfirst.symm.imp And.left id, rfl⟩

/-- A draw looks at the supplied noise and the count of draws only (R133; log 4). -/
theorem drawNoise_congr (hnoise : t.noise = s.noise) (hdrawn : t.drawn = s.drawn)
    (h : drawNoise t = some (p, u)) :
    drawNoise s = some (p, { s with noise := s.noise.tail, drawn := s.drawn + 1 }) := by
  obtain ⟨hp, -, hfirst⟩ := drawNoise_some h
  rw [hnoise, hdrawn] at hfirst
  rcases hfirst with hhead | ⟨hnil, rfl⟩
  · obtain ⟨rest, hn⟩ := List.head?_eq_some_iff.1 hhead
    rw [drawNoise_supplied hn hp, hn, List.tail_cons]
  · rw [drawNoise_free hnil, hnil, List.tail_nil, ← hnil]

/-- `xe` looks at the history and IDX only. -/
theorem ditherInput_congr (hh : t.h = s.h) (hidx : t.idx = s.idx) : ditherInput imm t = ditherInput imm s := by
  rw [ditherInput, hidx, funext (hist_of_h_eq s t hh), ditherInput]

/-- What Q16D writes depends on the history, IDX, and the noise only (R93, R106). -/
theorem exec_q16d_congr (hh : t.h = s.h) (hidx : t.idx = s.idx) (hnoise : t.noise = s.noise)
    (hdrawn : t.drawn = s.drawn) (h : exec (.q16d imm) t = .next u) :
    ∃ w, exec (.q16d imm) s = .next w ∧ w.h = u.h ∧ w.idx = u.idx ∧ w.out = u.out ∧
      w.noise = u.noise ∧ w.drawn = u.drawn := by
  obtain ⟨p, t1, hdraw, rfl⟩ := exec_next h
  obtain ⟨-, rfl, -⟩ := drawNoise_some hdraw
  refine ⟨_, exec_q16d_of_draw (drawNoise_congr hnoise hdrawn hdraw), ?_⟩
  simp [ditherInput_congr hh hidx, hh, hidx, hnoise, hdrawn]

end DitherExecution

section FeedbackFilter

variable {s : State} {errors : List F64}

/-- `xe` as the five weighted errors at their distances from IDX (R96, R98). -/
theorem ditherInput_eq_tapSum (imm : BitVec 16) (s : State) : ditherInput imm s =
    tapSum (preRounding imm) (s.hist s.idx) (s.hist (s.idx - 1)) (s.hist (s.idx - 2)) (s.hist (s.idx - 3))
      (s.hist (s.idx - 4)) := by
  rw [← congrArg s.hist (BitVec.sub_zero s.idx)]
  rfl

/-- After Q16D the new error stands at distance 0 from IDX and every older one has moved on by one (R100). -/
theorem ditherWrite_hist_at_distance (xe r : F64) (s : State) (k : BitVec 3) :
    (ditherWrite xe r s).hist ((ditherWrite xe r s).idx - k) =
      if k = 0 then f64Sub xe r else s.hist (s.idx - (k - 1)) := by
  have hself : s.idx + 1 = s.idx + 1 - k ↔ k = 0 := by bv_omega
  have hmove : s.idx + 1 - k = s.idx - (k - 1) := by bv_omega
  rw [ditherWrite_idx, ditherWrite_hist, if_congr hself rfl rfl, hmove]

/-- The errors so far, newest first, stand at the eight distances from IDX; those before the first are +0.0
(R104). -/
def State.HoldsErrors (s : State) (errors : List F64) : Prop :=
  ∀ k : BitVec 3, s.hist (s.idx - k) = errors.getD k.toNat 0

theorem State.HoldsErrors.ditherInput_eq (h : s.HoldsErrors errors) (imm : BitVec 16) : ditherInput imm s =
    tapSum (preRounding imm) (errors.getD 0 0) (errors.getD 1 0) (errors.getD 2 0) (errors.getD 3 0)
      (errors.getD 4 0) := by
  have h0 := (congrArg s.hist (BitVec.sub_zero s.idx)).symm.trans (h 0)
  rw [ditherInput_eq_tapSum, h0, h 1, h 2, h 3, h 4]
  rfl

/-- Q16D puts its error in front of the errors held. -/
theorem State.HoldsErrors.cons (h : s.HoldsErrors errors) (xe r : F64) :
    (ditherWrite xe r s).HoldsErrors (f64Sub xe r :: errors) := by
  intro k
  rw [ditherWrite_hist_at_distance]
  split
  next hk => rw [hk]; rfl
  next hk =>
    have hsucc : k.toNat = (k - 1).toNat + 1 := by bv_omega
    rw [h, hsucc, List.getD_cons_succ]

theorem ditherRun_cons {t u : State} {imm : BitVec 16} {rest : List (BitVec 16)} {bytes : List Byte}
    (h : exec (.q16d imm) s = .next t) (hrest : ditherRun rest t = some (u, bytes)) :
    ditherRun (imm :: rest) s = some (u, t.out :: bytes) := by
  simp only [ditherRun, h, hrest]

/-- From a state that holds the errors so far, the Q16D commands follow the recurrence and consume the pairs
(R104). -/
theorem ditherRun_eq_filterRun (samples : List (BitVec 16 × NoisePair)) {later : List NoisePair}
    (hs : s.HoldsErrors errors) (hrange : ∀ x ∈ samples, x.2.inRange = true)
    (hnoise : s.noise = samples.map Prod.snd ++ later) :
    ∃ t : State, ditherRun (samples.map Prod.fst) s = some (t, (filterRun errors samples).2) ∧
      t.HoldsErrors (filterRun errors samples).1 ∧ t.noise = later := by
  induction samples generalizing s errors with
  | nil => exact ⟨s, rfl, hs, hnoise⟩
  | cons x rest ih =>
    obtain ⟨imm, p⟩ := x
    obtain ⟨hp, hrest⟩ := List.forall_mem_cons.1 hrange
    have hexec := exec_q16d_of_draw (imm := imm) (drawNoise_supplied hnoise hp)
    rw [hs.ditherInput_eq] at hexec
    have hdrawn : State.HoldsErrors { s with noise := rest.map Prod.snd ++ later, drawn := s.drawn + 1 } errors := hs
    obtain ⟨t, hrun, ht, hlater⟩ := ih (hdrawn.cons _ _) hrest rfl
    exact ⟨t, ditherRun_cons hexec hrun, ht, hlater⟩

end FeedbackFilter

/-- Settles O38: a history of +0.0 holds the empty list of errors. -/
theorem q16DIsTheFiveTapFilter : Obligations.Q16DIsTheFiveTapFilter := by
  intro samples s later hrange hnoise hzero
  exact ditherRun_eq_filterRun samples (fun k => hzero (s.idx - k)) hrange hnoise

/-- Settles O37: by the distance from the new IDX. -/
theorem historyIsAShiftRegister : Obligations.HistoryIsAShiftRegister := by
  intro imm s t p s1 hdraw h
  rw [exec_q16d_of_draw hdraw] at h
  cases h
  obtain ⟨-, rfl, -⟩ := drawNoise_some hdraw
  refine ⟨?_, fun k hk => ?_⟩
  · simp
  · rw [ditherWrite_hist_at_distance, if_neg hk]
    rfl

/-- Settles O40: none of the three commands writes the history, IDX or the noise, all that Q16D looks at. -/
theorem otherSampleCommandsDoNotDisturbTheFilter : Obligations.OtherSampleCommandsDoNotDisturbTheFilter := by
  intro i imm s t u hi h hu
  have hother : (∀ imm, i ≠ .q16d imm) ∧ i ≠ .drst := by
    obtain ⟨b, rfl⟩ | ⟨a, rfl⟩ | ⟨e, rfl⟩ := hi <;> simp
  obtain ⟨hh, hidx⟩ := (exec_next h).dither_of_other hother.1 hother.2
  obtain ⟨hnoise, hdrawn⟩ := (exec_next h).noise_of_ne_q16d hother.1
  exact exec_q16d_congr hh hidx hnoise hdrawn hu

/-- Settles O36: the quotient and the sum are integers of 256ths; the least sample is evaluated. -/
theorem sampleValueIsExact : Obligations.SampleValueIsExact := by
  intro imm
  obtain ⟨hfin, hval⟩ := sampleValue_exact imm
  have hhigh : (imm.toInt : ℚ) + 1 ≤ 32768 := by exact_mod_cast BitVec.toInt_lt (x := imm)
  refine ⟨rfl, hfin, (sampleQuotient_exact imm).2, hval, (sampleValue_mem imm).1, ?_, sampleValue_least⟩
  rw [hval]
  linarith

/-- Settles O33: `v + 0.5` is exact, so that its floor is a whole part of integers. -/
theorem q16FollowsTheIntegerLaw : Obligations.Q16FollowsTheIntegerLaw := by
  refine ⟨commandRule_of_commandOf fun _ => rfl, fun imm s => ⟨rfl, ?_, ?_⟩⟩
  · exact (sampleValue_add_half_exact imm).2.trans (by push_cast; rfl)
  · rw [← clampbyte_roundHalfUp_sampleValue]
    rfl

/-- Settles O39: on a history of zeros, and with a zero for noise, every addition before the floor adds a zero. -/
theorem firstDitheredSampleIsNominal : Obligations.FirstDitheredSampleIsNominal := by
  intro imm s hs
  have hxe := ditherInput_of_zero_history hs imm
  refine ⟨hxe, fun p rest hn hp hzero => ?_⟩
  have hr : ditherResult (sampleValue imm) p = roundHalfUp (sampleValue imm) :=
    hzero.elim (ditherResult_of_zero_noise (neg := false) imm) (ditherResult_of_zero_noise (neg := true) imm)
  have hexec := exec_q16d_of_draw (imm := imm) (drawNoise_supplied hn hp)
  rw [hxe, hr] at hexec
  obtain ⟨hfin, hval, hlow, hhigh⟩ := nominalError_exact imm
  refine ⟨_, _, hexec, rfl, rfl, ?_⟩
  rw [ditherWrite_idx, ditherWrite_hist, if_pos rfl]
  exact ⟨hfin, hval, hval ▸ hlow, hval ▸ hhigh⟩

/-- Settles O43: five weighted errors of at most 3.25 each are added to a value in [0, 256], and the noise and the
error are bounded in turn. -/
theorem ditherPathStaysFinite : Obligations.DitherPathStaysFinite := by
  intro imm s p hs hp
  have hxe := ditherInput_bounded hs imm
  obtain ⟨hnoisy, hr, -⟩ := ditherResult_near hxe hp
  obtain ⟨hfin, hlow, hhigh⟩ := hxe
  refine ⟨hfin, ?_, ?_, hnoisy, hr, (ditherError_bounded ⟨hfin, hlow, hhigh⟩ hp).1⟩
  · refine lt_of_lt_of_le ?_ hlow
    norm_num
  · refine hhigh.trans_lt ?_
    norm_num

/-- Settles O32: the operand of BYP8 is legal when it is a byte, and its execution is the write of OUT. -/
theorem byp8CopiesTheByte : Obligations.Byp8CopiesTheByte := by
  refine ⟨commandRule_of_commandOf fun imm => ?_, fun _ _ => rfl⟩
  have hbyte : imm.extractLsb' 8 8 = 0 ↔ decide (imm.toNat < 256) = true := by
    rw [decide_eq_true_iff]
    exact (highByte_eq_zero_iff imm).trans (Nat.div_eq_zero_iff_lt (by decide))
  rw [← extractLsb'_zero_eq_ofNat, ← if_congr hbyte rfl rfl]
  rfl

/-- Settles O34: the draw succeeds, and the five taps are the history at its distances from the old IDX. -/
theorem q16DWritesOutIndexAndError : Obligations.Q16DWritesOutIndexAndError := by
  refine ⟨commandRule_of_commandOf fun _ => rfl, fun imm s h => ?_⟩
  obtain ⟨p, hp, hfirst, hdraw⟩ := exists_drawNoise h
  refine ⟨p, hp, hfirst, (exec_q16d_of_draw hdraw).trans ?_⟩
  rw [ditherInput_eq_tapSum]
  rfl

end Sys2Proof.Machine
end

/-! ## Errors and the read-back: every piece of the block is read, errors are sticky, and no later transaction looks at
them (R41, R113, R115, R116, R123, R133) -/

section
namespace Sys2Proof.Machine

open Sys2Proof.Claims

section ReadBack

variable {s t : State} {v w : F64}

/-- A 64-bit value is its two words (R45). -/
theorem eq_of_words_eq (hlow : v.extractLsb' 0 32 = w.extractLsb' 0 32)
    (hhigh : v.extractLsb' 32 32 = w.extractLsb' 32 32) : v = w := by
  rw [← BitVec.toNat_inj, toNat_lowWord, toNat_lowWord] at hlow
  rw [← BitVec.toNat_inj, toNat_highWord, toNat_highWord] at hhigh
  apply BitVec.eq_of_toNat_eq
  rw [← Nat.div_add_mod v.toNat (2 ^ 32), ← Nat.div_add_mod w.toNat (2 ^ 32), hlow, hhigh]

/-- STATUS shows OUT, IDX and the error report (R22). -/
theorem registers_eq_of_status_eq (h : busRead .status s = busRead .status t) :
    s.out = t.out ∧ s.idx = t.idx ∧ s.ill = t.ill ∧ s.berr = t.berr ∧ s.ecause = t.ecause := by
  obtain ⟨hout, hidx, -, hill, hberr, -, hcause, -⟩ := statusFieldsStandAtTheirBits s
  obtain ⟨hout', hidx', -, hill', hberr', -, hcause', -⟩ := statusFieldsStandAtTheirBits t
  rw [h] at hout hidx hill hberr hcause
  exact ⟨hout.symm.trans hout', hidx.symm.trans hidx', hill.symm.trans hill', hberr.symm.trans hberr',
    hcause.symm.trans hcause'⟩

end ReadBack

/-- Settles O8: STATUS shows five pieces, XHI and XLO themselves, and FRES and each history entry in two words. -/
theorem readBackDeterminesTheBlock : Obligations.ReadBackDeterminesTheBlock := by
  intro s t hread
  have hread' := fun slot => (hread slot).symm
  obtain ⟨hout, hidx, hill, hberr, hcause⟩ := registers_eq_of_status_eq (hread' .status)
  exact {
    h := h_eq_of_hist_eq s t fun i => eq_of_words_eq (hread' (.hl i)) (hread' (.hh i))
    idx := hidx
    out := hout
    xhi := hread' .xhi
    xlo := hread' .xlo
    fres := eq_of_words_eq (hread' .fresl) (hread' .fresh)
    ill := hill
    berr := hberr
    ecause := hcause }

section StickyErrors

variable {s t : State} {i : Instr}

/-- No error of `s` is forgotten in `t`, nor the first cause replaced (R25 to R27). -/
structure ErrorsKept (s t : State) : Prop where
  ill : s.ill = true → t.ill = true
  berr : s.berr = true → t.berr = true
  ecause : s.ecause ≠ 0 → t.ecause ≠ 0
  first : ¬ s.errorFree → t.ecause = s.ecause

theorem errorsKept_of_eq (hill : t.ill = s.ill) (hberr : t.berr = s.berr) (hcause : t.ecause = s.ecause) :
    ErrorsKept s t where
  ill := hill.trans
  berr := hberr.trans
  ecause h := by rwa [hcause]
  first _ := hcause

/-- An error report only adds to the sticky bits, and records a code, never 0, for the first error only (R111). -/
theorem errorsKept_raise (s : State) (c : ErrCause) : ErrorsKept s (s.raise c) where
  ill h := by rw [raise_ill, h, Bool.true_or]
  berr h := by rw [raise_berr, h, Bool.true_or]
  ecause h := by
    by_cases hfree : s.errorFree
    · rw [raise_first c hfree]
      cases c <;> decide
    · rwa [raise_later c hfree]
  first := raise_later c

/-- Of the instructions, only ECLR forgets an error: a bad write adds one, and the others touch none. -/
theorem ExecResult.errorsKept (h : ExecResult i s t) (hi : i ≠ .eclr) : ErrorsKept s t := by
  cases i with
  | eclr => exact absurd rfl hi
  | wrBad slot d =>
    obtain ⟨c, -, rfl⟩ := h
    exact errorsKept_raise s c
  | q16d imm =>
    obtain ⟨p, -, rfl⟩ := h.eq_ditherWrite
    exact errorsKept_of_eq rfl rfl rfl
  | _ =>
    cases h
    exact errorsKept_of_eq rfl rfl rfl

theorem step_errorsKept (h : step s = .next t) (hr : ¬ Resets s) (he : ¬ Performs s .eclr) :
    ErrorsKept (s.withInputs s.inputs.tail) t := by
  obtain ⟨-, hr', -⟩ | ⟨i, hp, hres⟩ | ⟨c, rfl⟩ := step_resets_or_performs_or_raises h
  · exact absurd hr' hr
  · refine hres.errorsKept ?_
    rintro rfl
    exact he hp
  · exact errorsKept_raise _ c

end StickyErrors

/-- Settles O20: taking the input touches no error, and what is then performed keeps them all. -/
theorem onlyEclrAndResetClearErrors : Obligations.OnlyEclrAndResetClearErrors := by
  intro s t h hr he
  obtain ⟨hill, hberr, hcause, hfirst⟩ := step_errorsKept h hr he
  exact ⟨hill, hberr, hcause, hfirst⟩

section ErrorsAreNoTrap

variable {s t : State} {i : Instr}

/-- The state with another error report. -/
def State.setErrors (ill berr : Bool) (ecause : BitVec 4) (s : State) : State :=
  { s with ill := ill, berr := berr, ecause := ecause }

/-- With another error report every instruction but a read of STATUS leads to the same state, the error report apart:
none of them looks at it but to report or clear an error (R113). -/
theorem exec_setErrors (hi : i ≠ .rd .status) (h : exec i s = .next t) (a b : Bool) (c : BitVec 4) :
    ∃ a' b' c', exec i (s.setErrors a b c) = .next (t.setErrors a' b' c') := by
  cases i with
  | eclr =>
    cases h
    exact ⟨false, false, 0, rfl⟩
  | wrBad slot d =>
    obtain ⟨e, he, rfl⟩ := exec_next h
    exact ⟨_, _, _, exec_wrBad he d _⟩
  | rd slot =>
    cases h
    have hword : busRead slot (s.setErrors a b c) = busRead slot s :=
      busRead_congr_of_ne_status (mt (congrArg Instr.rd) hi) rfl rfl rfl rfl
    refine ⟨a, b, c, ?_⟩
    rw [exec, execRd, hword]
    rfl
  | q16d imm =>
    -- The same pair is drawn, and `xe` is made of the same history (R133).
    obtain ⟨p, s1, hdraw, rfl⟩ := exec_next h
    obtain ⟨-, rfl, -⟩ := drawNoise_some hdraw
    have hdraw' := drawNoise_congr (t := s) (s := s.setErrors a b c) rfl rfl hdraw
    have hxe : ditherInput imm (s.setErrors a b c) = ditherInput imm s := ditherInput_congr rfl rfl
    refine ⟨a, b, c, (exec_q16d_of_draw hdraw').trans ?_⟩
    rw [hxe]
    rfl
  | _ =>
    cases h
    exact ⟨a, b, c, rfl⟩

end ErrorsAreNoTrap

/-- Settles O21: the next states differ in the error report only, and after a read of STATUS in the word returned. -/
theorem errorsDoNotStopLaterCommands : Obligations.ErrorsDoNotStopLaterCommands := by
  intro i s t a b c h
  by_cases hi : i = .rd .status
  · subst hi
    cases h
    exact ⟨_, rfl, rfl, rfl, rfl, rfl, rfl, rfl, rfl, rfl, rfl, absurd rfl⟩
  · obtain ⟨a', b', c', hu⟩ := exec_setErrors hi h a b c
    exact ⟨_, hu, rfl, rfl, rfl, rfl, rfl, rfl, rfl, rfl, rfl, fun _ => rfl⟩

end Sys2Proof.Machine
end

/-! ## What completes: every pending input and reset; and the only two refusals (R125, R127, R135; log 5, log 13) -/

section
namespace Sys2Proof.Machine

section Refusals

variable {s : State} {i : Instr}

theorem exec_q16d_of_no_draw (h : drawNoise s = none) (imm : BitVec 16) :
    exec (.q16d imm) s = .refused .noiseOutOfRange := by
  simp only [exec, execQ16d, h]

/-- A term that no pattern stands for is a `wrBad` of a writable slot, and refused (log 13). -/
theorem exec_of_illFormed (h : i.wellFormed = false) (s : State) : exec i s = .refused .illFormed := by
  cases i with
  | wrBad slot d =>
    have hnone : slot.access.writeError = none := by simpa [Instr.wellFormed] using h
    simp only [exec, execWrBad, hnone]
  | _ => cases h

/-- All that `exec` refuses: a Q16D whose draw is turned away, and an ill-formed term. -/
theorem exec_eq_refused_iff (i : Instr) (s : State) (r : Refusal) : exec i s = .refused r ↔
    (r = .noiseOutOfRange ∧ ∃ imm, i = .q16d imm ∧ drawNoise s = none) ∨
    (r = .illFormed ∧ i.wellFormed = false) := by
  constructor
  · intro h
    cases hwf : i.wellFormed with
    | true => exact .inl (exec_refused hwf h)
    | false =>
      rw [exec_of_illFormed hwf] at h
      cases h
      exact .inr ⟨rfl, rfl⟩
  · rintro (⟨rfl, imm, rfl, hdraw⟩ | ⟨rfl, hwf⟩)
    · exact exec_q16d_of_no_draw hdraw imm
    · exact exec_of_illFormed hwf s

theorem drawNoise_ne_none (hs : s.NoiseAdmissible) : drawNoise s ≠ none := by
  intro hdraw
  obtain ⟨p, rest, hn, hp⟩ := drawNoise_none.1 hdraw
  have hin : p.inRange = true := hs p (by rw [hn]; exact List.mem_cons_self)
  rw [hp] at hin
  cases hin

/-- With admissible noise no step is refused: what the decoder answers is well formed. -/
theorem step_ne_refused (hs : s.NoiseAdmissible) (r : Refusal) : step s ≠ .refused r := by
  intro h
  cases hin : s.inputs with
  | nil => rw [step_idle hin] at h; cases h
  | cons x rest =>
    cases x with
    | reset p => rw [step_reset hin] at h; cases h
    | bus tp =>
      cases hd : decode tp with
      | error c => rw [step_error hin hd] at h; cases h
      | ok i =>
        rw [step_ok hin hd] at h
        obtain ⟨-, -, -, hdraw⟩ := exec_refused (decode_wellFormed hd) h
        exact drawNoise_ne_none (s := s.withInputs rest) hs hdraw

end Refusals

/-- A step takes the first pending input and no other. -/
theorem step_inputs {s t : State} (h : step s = .next t) : t.inputs = s.inputs.tail := by
  obtain ⟨p, -, rfl⟩ | ⟨i, -, hres⟩ | ⟨c, rfl⟩ := step_resets_or_performs_or_raises h
  · rfl
  · exact hres.registerWriters.inputs
  · rfl

/-- Settles O17: admissible noise leaves no refusal, and a pending input no fault. -/
theorem everyPendingInputCompletes : Obligations.EveryPendingInputCompletes := by
  intro s hs hpending
  cases h : step s with
  | next t => exact ⟨t, rfl, step_inputs h⟩
  | fault f => exact absurd ((step_eq_fault_iff s f).1 h) hpending
  | refused r => exact absurd h (step_ne_refused hs r)

/-- Settles O35: each reason is one of the two cases of a refusal. -/
theorem onlyBadNoiseAndIllFormedTermsAreRefused : Obligations.OnlyBadNoiseAndIllFormedTermsAreRefused := by
  intro i s
  refine ⟨?_, ?_, ?_, exec_ne_fault i s⟩
  · simp [exec_eq_refused_iff, drawNoise_none]
  · simp [exec_eq_refused_iff]
  · intro r h
    exact ((exec_eq_refused_iff i s r).1 h).imp And.left And.left

/-- Settles O14: a reset keeps the model's own fields and takes the event, whatever was in progress. -/
theorem resetCompletesWithoutNoise : Obligations.ResetCompletesWithoutNoise := by
  rintro s ⟨p, rest, hin⟩
  have hstep := step_reset hin
  exact ⟨_, hstep, rfl, rfl, rfl, step_inputs hstep⟩

/-- Settles O15: a slot shows zero bits, or a word of a history of zeros. -/
theorem everySlotReadsZeroAfterReset : Obligations.EverySlotReadsZeroAfterReset := by
  intro slot
  obtain ⟨hhist, -⟩ := resetLeavesTheStatedValues State.reset State.reset (.inl rfl)
  cases slot with
  | hl k => rw [busRead_hl, hhist]; rfl
  | hh k => rw [busRead_hh, hhist]; rfl
  | _ => rfl

end Sys2Proof.Machine
end
